-- ==== Sys2Proof/Word.lean ====
section
/-!
DEFINITION. The widths of the machine's values (spec 00_scope.md R7, R9; 30_encoding.md R72).
-/

namespace Sys2Proof

/-- A `u8`: a general register, a timer, a memory cell, the immediate `NN`. -/
abbrev Byte := BitVec 8

/-- A `u16`: the program counter, the index register, a stack slot, an instruction word. -/
abbrev Word := BitVec 16

/-- The 12-bit address `NNN`. -/
abbrev Addr := BitVec 12

/-- The 4-bit immediate `N`. -/
abbrev Nibble := BitVec 4

/-- A register number, 0x0 to 0xF (R20), or the number of a logical key (R35). -/
abbrev Reg := Fin 16

/-- The key vector: bit `k` is 1 when logical key `k` is pressed (10_state.md R35). -/
abbrev KeyVector := BitVec 16

end Sys2Proof
end

