-- ==== Sys2Proof/Config.lean ====
section
/-!
DEFINITION. What an implementation of the block fixes: the sizes of 00_scope.md R7, the eight open parameters of R8,
and the two draws of R14, which are free values.
-/

namespace Sys2Proof

/-- `MEM_SIZE` (R7). -/
abbrev memSize : Nat := 4096

/-- `PROG_START` (R7), the first address of the program region and the entry point. -/
abbrev progStart : Nat := 0x200

/-- `MAX_IMAGE` (R7): the longest image `Load` accepts. -/
abbrev maxImage : Nat := memSize - progStart

/-- `STACK_DEPTH` (R7). -/
abbrev stackDepth : Nat := 16

/-- The 80 bytes of the glyph table (R7, 20_memory.md R52). -/
abbrev Font := Vector Byte 80

/-- `ODD_PC_POLICY` (R8): what the fetch does at an odd program counter (20_memory.md R55). -/
inductive OddPcPolicy where
  | fault
  | fetch
  deriving DecidableEq, Repr

/-- `SHIFT_SOURCE` (R8): which register SHR and SHL shift (42_register_ops.md R150, R152). -/
inductive ShiftSource where
  | vx
  | vy
  deriving DecidableEq, Repr

/-- `FLAG_ORDER` (R8): the order of the result write and the flag write (42_register_ops.md R147). -/
inductive FlagOrder where
  | flagLast
  | resultLast
  deriving DecidableEq, Repr

/-- `TIMER_POLICY` (R8): who runs the timer tick (44_timers.md R194). -/
inductive TimerPolicy where
  | perStep
  | externalTick
  deriving DecidableEq, Repr

/-- `KEY_WAIT_TRIGGER` (R8): what ends a key wait (47_key_input.md R234). -/
inductive KeyWaitTrigger where
  | edge
  | level
  deriving DecidableEq, Repr

/-- `DRAW_H0` (R8): what DXY0 does (46_draw.md R216). -/
inductive DrawH0 where
  | literal
  | fault
  deriving DecidableEq, Repr

/-- The parameters the source leaves open (R8). "A model takes each as an argument": they are a field of State that no
operation writes, so a statement about every state is a statement about every choice of them (log entry 1). -/
structure Params where
  font           : Font
  oddPcPolicy    : OddPcPolicy
  hasSubn        : Bool
  shiftSource    : ShiftSource
  flagOrder      : FlagOrder
  timerPolicy    : TimerPolicy
  keyWaitTrigger : KeyWaitTrigger
  drawH0         : DrawH0
  deriving DecidableEq, Repr

/-- `draw_byte()` (R14, 45_random.md R200): the byte of the n-th draw. DESIGN CHOICE, safe (log entry 5): a free value,
nothing is known of it. -/
opaque Config.drawByte : Nat → Byte

/-- `choose(S)` (R14, 47_key_input.md R236): the number that selects a member of `S` at the n-th draw. DESIGN CHOICE,
safe (log entry 6): a free value, nothing is known of it. -/
opaque Config.drawChoice : Nat → Nat

end Sys2Proof
end

