-- ==== Sys2Proof/Syntax.lean ====
section
/-!
DEFINITION. The instructions: one constructor per row of spec/opcode_table.json, in the document's family order
(30_encoding.md R76). `x` and `y` are the register selectors X and Y, `n` is N, `nn` is NN, `nnn` is NNN (R72).
-/

namespace Sys2Proof

inductive Instr where
  -- control flow
  | cls
  | ret
  | jp (nnn : Addr)
  | call (nnn : Addr)
  | jpV0 (nnn : Addr)
  -- comparisons and skips
  | seImm (x : Reg) (nn : Byte)
  | sneImm (x : Reg) (nn : Byte)
  | seReg (x y : Reg)
  | sneReg (x y : Reg)
  -- register operations
  | ldImm (x : Reg) (nn : Byte)
  | addImm (x : Reg) (nn : Byte)
  | ldReg (x y : Reg)
  | orReg (x y : Reg)
  | andReg (x y : Reg)
  | xorReg (x y : Reg)
  | addReg (x y : Reg)
  | subReg (x y : Reg)
  /-- 8XY6. The Y field is kept: it names the source under `SHIFT_SOURCE = vy` (R150). -/
  | shr (x y : Reg)
  /-- 8XYE. The Y field is kept: it names the source under `SHIFT_SOURCE = vy` (R152). -/
  | shl (x y : Reg)
  -- memory and index
  | ldI (nnn : Addr)
  | addI (x : Reg)
  | ldF (x : Reg)
  | ldB (x : Reg)
  | storeRegs (x : Reg)
  | loadRegs (x : Reg)
  -- timers
  | ldFromDt (x : Reg)
  | ldDt (x : Reg)
  | ldSt (x : Reg)
  -- random, draw, key input
  | rnd (x : Reg) (nn : Byte)
  | drw (x y : Reg) (n : Nibble)
  | skp (x : Reg)
  | sknp (x : Reg)
  | ldKey (x : Reg)
  /-- 8XY7, the optional row: a word decodes to it only under `HAS_SUBN = true` (R151). -/
  | subn (x y : Reg)
  deriving DecidableEq, Repr

end Sys2Proof
end

