-- ==== Sys2Proof/WellFormed.lean ====
section
/-!
DEFINITION. Which instructions the block has. The operand ranges of 30_encoding.md R72 are the types of the
constructors' fields, so no ill-ranged operand can be written. The one check left is R70's: the set is the 33
instructions of R76, "plus 8XY7 only when HAS_SUBN is true".
-/

namespace Sys2Proof

/-- `i` is an instruction of the block whose `HAS_SUBN` is `hasSubn` (R70). -/
def Instr.wellFormed (hasSubn : Bool) : Instr → Bool
  | .subn _ _ => hasSubn
  | .cls | .ret | .jp _ | .call _ | .jpV0 _ => true
  | .seImm _ _ | .sneImm _ _ | .seReg _ _ | .sneReg _ _ => true
  | .ldImm _ _ | .addImm _ _ | .ldReg _ _ | .orReg _ _ | .andReg _ _ | .xorReg _ _ => true
  | .addReg _ _ | .subReg _ _ | .shr _ _ | .shl _ _ => true
  | .ldI _ | .addI _ | .ldF _ | .ldB _ | .storeRegs _ | .loadRegs _ => true
  | .ldFromDt _ | .ldDt _ | .ldSt _ => true
  | .rnd _ _ | .drw _ _ _ | .skp _ | .sknp _ | .ldKey _ => true

end Sys2Proof
end

