-- ==== Sys2Proof/Decode.lean ====
section
/-!
DEFINITION. Instruction words: fields (30_encoding.md R72), byte order (20_memory.md R55, R58), the decoder (R77), the
encoder (R73, R76) and the opcode table's masks. The bit patterns are the spec's (log entry 13).
-/

namespace Sys2Proof

/-! ## Byte order (R55, R58) -/

/-- `b0 ++ b1`: the byte at the lower address is bits 15:8. -/
def wordOfBytes (b0 b1 : Byte) : Word := b0 ++ b1

/-- The two bytes of a word, the one for the lower address first. -/
def bytesOfWord (w : Word) : List Byte := [w.extractLsb' 8 8, w.extractLsb' 0 8]

/-! ## Fields (R72) -/

/-- `op = w[15:12]`, the leading nibble. -/
def opField (w : Word) : Nat := (w.extractLsb' 12 4).toNat

/-- `X = w[11:8]`. -/
def xField (w : Word) : Reg := (w.extractLsb' 8 4).toFin

/-- `Y = w[7:4]`. -/
def yField (w : Word) : Reg := (w.extractLsb' 4 4).toFin

/-- `N = w[3:0]`. -/
def nField (w : Word) : Nibble := w.extractLsb' 0 4

/-- `NN = w[7:0]`. -/
def nnField (w : Word) : Byte := w.extractLsb' 0 8

/-- `NNN = w[11:0]`. -/
def nnnField (w : Word) : Addr := w.extractLsb' 0 12

/-! ## The decoder (R77) -/

/-- Family 8, by the secondary nibble; 8XY7 exists only under `HAS_SUBN` (R77, R151). -/
def decodeFamily8 (hasSubn : Bool) (x y : Reg) (n : Nat) : Option Instr :=
  match n with
  | 0x0 => some (.ldReg x y)
  | 0x1 => some (.orReg x y)
  | 0x2 => some (.andReg x y)
  | 0x3 => some (.xorReg x y)
  | 0x4 => some (.addReg x y)
  | 0x5 => some (.subReg x y)
  | 0x6 => some (.shr x y)
  | 0x7 => if hasSubn then some (.subn x y) else none
  | 0xE => some (.shl x y)
  | _ => none

/-- Family E, by the secondary byte (R77). -/
def decodeFamilyE (x : Reg) (nn : Nat) : Option Instr :=
  match nn with
  | 0x9E => some (.skp x)
  | 0xA1 => some (.sknp x)
  | _ => none

/-- Family F, by the secondary byte (R77). -/
def decodeFamilyF (x : Reg) (nn : Nat) : Option Instr :=
  match nn with
  | 0x07 => some (.ldFromDt x)
  | 0x0A => some (.ldKey x)
  | 0x15 => some (.ldDt x)
  | 0x18 => some (.ldSt x)
  | 0x1E => some (.addI x)
  | 0x29 => some (.ldF x)
  | 0x33 => some (.ldB x)
  | 0x55 => some (.storeRegs x)
  | 0x65 => some (.loadRegs x)
  | _ => none

/-- `Decode(w)` of R77, total on every word; `none` is its `Unknown` (R78). -/
def decodeWord (hasSubn : Bool) (w : Word) : Option Instr :=
  match opField w with
  | 0x0 => if w = 0x00E0#16 then some .cls else if w = 0x00EE#16 then some .ret else none
  | 0x1 => some (.jp (nnnField w))
  | 0x2 => some (.call (nnnField w))
  | 0x3 => some (.seImm (xField w) (nnField w))
  | 0x4 => some (.sneImm (xField w) (nnField w))
  | 0x5 => if nField w = 0 then some (.seReg (xField w) (yField w)) else none
  | 0x6 => some (.ldImm (xField w) (nnField w))
  | 0x7 => some (.addImm (xField w) (nnField w))
  | 0x8 => decodeFamily8 hasSubn (xField w) (yField w) (nField w).toNat
  | 0x9 => if nField w = 0 then some (.sneReg (xField w) (yField w)) else none
  | 0xA => some (.ldI (nnnField w))
  | 0xB => some (.jpV0 (nnnField w))
  | 0xC => some (.rnd (xField w) (nnField w))
  | 0xD => some (.drw (xField w) (yField w) (nField w))
  | 0xE => decodeFamilyE (xField w) (nnField w).toNat
  | 0xF => decodeFamilyF (xField w) (nnField w).toNat
  | _ => none

/-- Why the decoder rejects a byte string. -/
inductive DecodeReject where
  /-- The first two bytes form a word that R78 calls unknown. -/
  | unknownWord (w : Word)
  /-- Fewer than the two bytes every instruction has (R71). -/
  | fewerThanTwoBytes (bytes : List Byte)
  deriving DecidableEq, Repr

/-- The decoder on bytes, total: one instruction from the first two bytes (R71, R81) and the bytes after it. -/
def decode (hasSubn : Bool) : List Byte → Except DecodeReject (Instr × List Byte)
  | b0 :: b1 :: rest =>
    match decodeWord hasSubn (wordOfBytes b0 b1) with
    | some i => .ok (i, rest)
    | none => .error (.unknownWord (wordOfBytes b0 b1))
  | bytes => .error (.fewerThanTwoBytes bytes)

/-! ## The encoder (R73, R76) -/

/-- A register selector as its four bits. -/
def regBits (r : Reg) : BitVec 4 := BitVec.ofFin r

/-- Format `A`: `oooo aaaa aaaa aaaa`. -/
def formatA (op : BitVec 4) (nnn : Addr) : Word := op ++ nnn

/-- Format `XK`: `oooo xxxx kkkk kkkk`. -/
def formatXK (op : BitVec 4) (x : Reg) (nn : Byte) : Word := op ++ regBits x ++ nn

/-- Formats `XY` (`s` the secondary nibble) and `XYN` (`s` the height): `oooo xxxx yyyy ssss`. -/
def formatXY (op : BitVec 4) (x y : Reg) (s : Nibble) : Word := op ++ regBits x ++ regBits y ++ s

/-- Format `X`: `oooo xxxx ssss ssss`. -/
def formatX (op : BitVec 4) (x : Reg) (s : Byte) : Word := op ++ regBits x ++ s

/-- The word of an instruction (R76); every instruction is one word (R71). -/
def encode : Instr → Word
  | .cls => 0x00E0#16
  | .ret => 0x00EE#16
  | .jp nnn => formatA 0x1#4 nnn
  | .call nnn => formatA 0x2#4 nnn
  | .jpV0 nnn => formatA 0xB#4 nnn
  | .seImm x nn => formatXK 0x3#4 x nn
  | .sneImm x nn => formatXK 0x4#4 x nn
  | .seReg x y => formatXY 0x5#4 x y 0x0#4
  | .sneReg x y => formatXY 0x9#4 x y 0x0#4
  | .ldImm x nn => formatXK 0x6#4 x nn
  | .addImm x nn => formatXK 0x7#4 x nn
  | .ldReg x y => formatXY 0x8#4 x y 0x0#4
  | .orReg x y => formatXY 0x8#4 x y 0x1#4
  | .andReg x y => formatXY 0x8#4 x y 0x2#4
  | .xorReg x y => formatXY 0x8#4 x y 0x3#4
  | .addReg x y => formatXY 0x8#4 x y 0x4#4
  | .subReg x y => formatXY 0x8#4 x y 0x5#4
  | .shr x y => formatXY 0x8#4 x y 0x6#4
  | .shl x y => formatXY 0x8#4 x y 0xE#4
  | .ldI nnn => formatA 0xA#4 nnn
  | .addI x => formatX 0xF#4 x 0x1E#8
  | .ldF x => formatX 0xF#4 x 0x29#8
  | .ldB x => formatX 0xF#4 x 0x33#8
  | .storeRegs x => formatX 0xF#4 x 0x55#8
  | .loadRegs x => formatX 0xF#4 x 0x65#8
  | .ldFromDt x => formatX 0xF#4 x 0x07#8
  | .ldDt x => formatX 0xF#4 x 0x15#8
  | .ldSt x => formatX 0xF#4 x 0x18#8
  | .rnd x nn => formatXK 0xC#4 x nn
  | .drw x y n => formatXY 0xD#4 x y n
  | .skp x => formatX 0xE#4 x 0x9E#8
  | .sknp x => formatX 0xE#4 x 0xA1#8
  | .ldKey x => formatX 0xF#4 x 0x0A#8
  | .subn x y => formatXY 0x8#4 x y 0x7#4

/-- The bytes of an instruction in memory order (R58). -/
def encodeBytes (i : Instr) : List Byte := bytesOfWord (encode i)

/-! ## The opcode table's rows -/

/-- One row of spec/opcode_table.json: a word is of the row when its bits under `mask` are `fixed`. -/
structure OpcodeRow where
  fixed : Word
  mask  : Word
  deriving DecidableEq, Repr

/-- The word `w` is of the row `r`. -/
def OpcodeRow.covers (r : OpcodeRow) (w : Word) : Bool := w &&& r.mask == r.fixed

/-- The row of spec/opcode_table.json that an instruction belongs to, its "match" and "mask" as the table has them. -/
def Instr.row : Instr → OpcodeRow
  | .cls => ⟨0x00E0#16, 0xFFFF#16⟩
  | .ret => ⟨0x00EE#16, 0xFFFF#16⟩
  | .jp _ => ⟨0x1000#16, 0xF000#16⟩
  | .call _ => ⟨0x2000#16, 0xF000#16⟩
  | .jpV0 _ => ⟨0xB000#16, 0xF000#16⟩
  | .seImm _ _ => ⟨0x3000#16, 0xF000#16⟩
  | .sneImm _ _ => ⟨0x4000#16, 0xF000#16⟩
  | .seReg _ _ => ⟨0x5000#16, 0xF00F#16⟩
  | .sneReg _ _ => ⟨0x9000#16, 0xF00F#16⟩
  | .ldImm _ _ => ⟨0x6000#16, 0xF000#16⟩
  | .addImm _ _ => ⟨0x7000#16, 0xF000#16⟩
  | .ldReg _ _ => ⟨0x8000#16, 0xF00F#16⟩
  | .orReg _ _ => ⟨0x8001#16, 0xF00F#16⟩
  | .andReg _ _ => ⟨0x8002#16, 0xF00F#16⟩
  | .xorReg _ _ => ⟨0x8003#16, 0xF00F#16⟩
  | .addReg _ _ => ⟨0x8004#16, 0xF00F#16⟩
  | .subReg _ _ => ⟨0x8005#16, 0xF00F#16⟩
  | .shr _ _ => ⟨0x8006#16, 0xF00F#16⟩
  | .shl _ _ => ⟨0x800E#16, 0xF00F#16⟩
  | .ldI _ => ⟨0xA000#16, 0xF000#16⟩
  | .addI _ => ⟨0xF01E#16, 0xF0FF#16⟩
  | .ldF _ => ⟨0xF029#16, 0xF0FF#16⟩
  | .ldB _ => ⟨0xF033#16, 0xF0FF#16⟩
  | .storeRegs _ => ⟨0xF055#16, 0xF0FF#16⟩
  | .loadRegs _ => ⟨0xF065#16, 0xF0FF#16⟩
  | .ldFromDt _ => ⟨0xF007#16, 0xF0FF#16⟩
  | .ldDt _ => ⟨0xF015#16, 0xF0FF#16⟩
  | .ldSt _ => ⟨0xF018#16, 0xF0FF#16⟩
  | .rnd _ _ => ⟨0xC000#16, 0xF000#16⟩
  | .drw _ _ _ => ⟨0xD000#16, 0xF000#16⟩
  | .skp _ => ⟨0xE09E#16, 0xF0FF#16⟩
  | .sknp _ => ⟨0xE0A1#16, 0xF0FF#16⟩
  | .ldKey _ => ⟨0xF00A#16, 0xF0FF#16⟩
  | .subn _ _ => ⟨0x8007#16, 0xF00F#16⟩

/-- The table: the rows of the 33 instructions and of the optional 8XY7, in the table's order. -/
def opcodeRows : List OpcodeRow :=
  [⟨0x00E0#16, 0xFFFF#16⟩, ⟨0x00EE#16, 0xFFFF#16⟩, ⟨0x1000#16, 0xF000#16⟩, ⟨0x2000#16, 0xF000#16⟩, ⟨0xB000#16, 0xF000#16⟩, ⟨0x3000#16, 0xF000#16⟩] ++
  [⟨0x4000#16, 0xF000#16⟩, ⟨0x5000#16, 0xF00F#16⟩, ⟨0x9000#16, 0xF00F#16⟩, ⟨0x6000#16, 0xF000#16⟩, ⟨0x7000#16, 0xF000#16⟩, ⟨0x8000#16, 0xF00F#16⟩] ++
  [⟨0x8001#16, 0xF00F#16⟩, ⟨0x8002#16, 0xF00F#16⟩, ⟨0x8003#16, 0xF00F#16⟩, ⟨0x8004#16, 0xF00F#16⟩, ⟨0x8005#16, 0xF00F#16⟩, ⟨0x8006#16, 0xF00F#16⟩] ++
  [⟨0x800E#16, 0xF00F#16⟩, ⟨0xA000#16, 0xF000#16⟩, ⟨0xF01E#16, 0xF0FF#16⟩, ⟨0xF029#16, 0xF0FF#16⟩, ⟨0xF033#16, 0xF0FF#16⟩, ⟨0xF055#16, 0xF0FF#16⟩] ++
  [⟨0xF065#16, 0xF0FF#16⟩, ⟨0xF007#16, 0xF0FF#16⟩, ⟨0xF015#16, 0xF0FF#16⟩, ⟨0xF018#16, 0xF0FF#16⟩, ⟨0xC000#16, 0xF000#16⟩, ⟨0xD000#16, 0xF000#16⟩] ++
  [⟨0xE09E#16, 0xF0FF#16⟩, ⟨0xE0A1#16, 0xF0FF#16⟩, ⟨0xF00A#16, 0xF0FF#16⟩, ⟨0x8007#16, 0xF00F#16⟩]

/-- The rows of the block whose `HAS_SUBN` is `hasSubn` (R70): the table without its last row when it is false. -/
def opcodeRowsOf (hasSubn : Bool) : List OpcodeRow := if hasSubn then opcodeRows else opcodeRows.take 33

/-! ## The host's numbering -/

/-- The word whose bits `spec/opcode_table.json` numbers `w`, `nbits` of them given and the rest 0. -/
def tableWord (nbits w : Nat) : Word := BitVec.ofNat 16 (w % 2 ^ nbits)

/-- What the decoder reads from the bytes of a word of the table. The table holds the optional row 8XY7, so the block
asked is the one that has it, `HAS_SUBN = true` (log entry 10). -/
def decodeTableWord (nbits w : Nat) : Option Instr :=
  match decode true (bytesOfWord (tableWord nbits w)) with
  | .ok (i, _) => some i
  | .error _ => none

end Sys2Proof
end

