-- ==== Sys2Proof/Machine/Defaults.lean ====
section
/-!
DEFINITION. The spec's default values of the parameters (00_scope.md R8, 20_memory.md R53). They are the values State.reset
carries; no rule reads them from here.
-/

namespace Sys2Proof.Machine

/-- The default `FONT` (R53), glyph `d` in the d-th line. PRESUMED, unsafe (log entry 2): the spec gives these bytes from
general knowledge, not from its source. -/
def defaultFont : Font := #v[
  0xF0, 0x90, 0x90, 0x90, 0xF0,
  0x20, 0x60, 0x20, 0x20, 0x70,
  0xF0, 0x10, 0xF0, 0x80, 0xF0,
  0xF0, 0x10, 0xF0, 0x10, 0xF0,
  0x90, 0x90, 0xF0, 0x10, 0x10,
  0xF0, 0x80, 0xF0, 0x10, 0xF0,
  0xF0, 0x80, 0xF0, 0x90, 0xF0,
  0xF0, 0x10, 0x20, 0x40, 0x40,
  0xF0, 0x90, 0xF0, 0x90, 0xF0,
  0xF0, 0x90, 0xF0, 0x10, 0xF0,
  0xF0, 0x90, 0xF0, 0x90, 0x90,
  0xE0, 0x90, 0xE0, 0x90, 0xE0,
  0xF0, 0x80, 0x80, 0x80, 0xF0,
  0xE0, 0x90, 0x90, 0x90, 0xE0,
  0xF0, 0x80, 0xF0, 0x80, 0xF0,
  0xF0, 0x80, 0xF0, 0x80, 0x80]

/-- The default of every parameter (R8). UNVERIFIED, unsafe for a claim about State.reset alone (log entry 19). -/
def defaultParams : Params where
  font := defaultFont
  oddPcPolicy := .fault
  hasSubn := false
  shiftSource := .vx
  flagOrder := .flagLast
  timerPolicy := .perStep
  keyWaitTrigger := .edge
  drawH0 := .literal

end Sys2Proof.Machine
end

