-- ==== Sys2Proof/Machine/State.lean ====
section
/-!
DEFINITION. The machine's state as plain data: every field of 10_state.md R42, the parameters of 00_scope.md R8 and the
counter of draws. The state right after reset. What stops a step.
-/

namespace Sys2Proof.Machine

/-- The framebuffer (10_state.md R33): row `y` is the y-th entry, and bit `x` of a row is the pixel in column `x`
(DESIGN CHOICE, safe, log entry 17). -/
abbrev Framebuffer := Vector (BitVec 64) 32

/-- Memory (R36) as the list of the bytes that differ from what an unlisted address reads as, addresses rising. -/
abbrev Memory := List Host.Cell

/-- A reported fault with its record (60_exceptions.md R302): one constructor per kind of R309, each holding `pc` and the
fields R302 gives its kind. A faulting step records it in Status and changes nothing else (R301); every later step answers
it as the outcome (R311; DEDUCED, safe, log entry 8). No instruction's meaning answers a fault as its outcome. -/
inductive Fault where
  /-- R303: raised by the step for an unknown word, and by DXY0 under `DRAW_H0 = fault`. Safe: the spec's own fault. -/
  | unknownInstruction (pc word : Word)
  /-- R304: raised by CALL with all 16 slots in use. Safe: the spec's own fault. -/
  | stackOverflow (pc word : Word)
  /-- R305: raised by RET with no active call. Safe: the spec's own fault. -/
  | stackUnderflow (pc word : Word)
  /-- R306: raised by the fetch (no word) and by DXYN, FX33, FX55, FX65 (with the word); `addr` is the lowest address
  outside memory. Safe: the spec's own fault. -/
  | outOfBoundsAddress (pc : Word) (word : Option Word) (addr : Word)
  /-- R307: raised by the fetch at an odd `pc` under `ODD_PC_POLICY = fault`; the address at fault is `pc`. Safe: the
  spec's own fault. -/
  | misalignedFetch (pc : Word)
  /-- R308: raised by EX9E and EXA1 when the register holds a value above 0xF. Safe: the spec's own fault. -/
  | invalidKeyIndex (pc word : Word) (value : Byte)
  deriving DecidableEq, Repr

/-- Why the model gives no meaning. Every instruction has one, so no step answers a refusal. -/
inductive Refusal where
  /-- Raised by exec's arm of an instruction that has no meaning yet: none is left. Safe. -/
  | notModelled (mnemonic : String)
  deriving DecidableEq, Repr

/-- The engine status (R40). -/
inductive Status where
  | running
  /-- Suspended by FX0A: `x` is the register it will write, `snap` the key state a new press is judged against (R41). -/
  | awaitingKey (x : Reg) (snap : KeyVector)
  /-- A fault was reported; only Reset leaves this status (60_exceptions.md R311). -/
  | faulted (f : Fault)
  deriving DecidableEq, Repr

structure State where
  /-- V0 to VF (R20). -/
  v : Vector Byte 16
  /-- The index register I (R27). -/
  i : Word
  /-- The program counter (R23). -/
  pc : Word
  /-- The stack pointer: the number of occupied slots, 0 to 16 (R28). -/
  sp : Fin 17
  /-- The return stack (R28). -/
  stack : Vector Word 16
  /-- The delay timer (R31). -/
  dt : Byte
  /-- The sound timer (R31). -/
  st : Byte
  /-- The framebuffer (R33). -/
  fb : Framebuffer
  /-- The key vector, written by the host alone (R35). -/
  keys : KeyVector
  /-- Memory (R36). -/
  mem : Memory
  /-- The engine status (R40). -/
  status : Status
  /-- The parameters (00_scope.md R8): the model's own field, written by no operation of the block (log entry 1). -/
  cfg : Params
  /-- How many draws have been taken (00_scope.md R14): the model's own field (log entry 5). -/
  draws : Nat
  deriving DecidableEq, Repr

/-- The state right after reset (R42, 70_reset_and_hazards.md R400, R403), with the default parameters (R8) and memory
0x050 to 0xFFF as at creation (R43). The stack slots, which R42 leaves unspecified, are 0: DESIGN CHOICE, unsafe (log
entry 4). The counter of draws is 0: DESIGN CHOICE, safe (log entry 5). -/
def State.reset : State where
  v := Vector.replicate 16 0
  i := 0
  pc := BitVec.ofNat 16 progStart
  sp := 0
  stack := Vector.replicate 16 0
  dt := 0
  st := 0
  fb := Vector.replicate 32 0
  keys := 0
  mem := []
  status := .running
  cfg := defaultParams
  draws := 0

end Sys2Proof.Machine
end

