-- ==== Sys2Proof/Machine/Operands.lean ====
section
/-!
DEFINITION. The operand forms: general registers (10_state.md R20), immediates (30_encoding.md R74), the shift source
(42_register_ops.md R150), the glyph offset, the decimal digits, and the key operands (47_key_input.md).
-/

namespace Sys2Proof.Machine

/-- `V[r]` (00_scope.md R11). -/
def State.getV (s : State) (r : Reg) : Byte := s.v[r.val]

/-- `V[r] <- b` (R11). -/
def State.setV (s : State) (r : Reg) (b : Byte) : State := { s with v := s.v.set r.val b }

/-- `V[first + k] <- bs[k]` for every `k`: the registers of a bulk load (43_memory_index.md R176). -/
def writeRegsFrom (v : Vector Byte 16) : Nat → List Byte → Vector Byte 16
  | _, [] => v
  | first, b :: bs => writeRegsFrom (v.setIfInBounds first b) (first + 1) bs

/-- The values of V0 to V[x], in order: the registers of a bulk store (R175). -/
def regsUpTo (x : Reg) (s : State) : List Byte := s.v.toList.take (x.val + 1)

/-- `zext_16(NNN)` (R74). -/
def addrWord (nnn : Addr) : Word := nnn.setWidth 16

/-- A byte zero-extended to 16 bits (R10, R74). -/
def byteWord (b : Byte) : Word := b.setWidth 16

/-- The value the shifts shift: VX or VY by `SHIFT_SOURCE` (R150, R152). -/
def shiftOperand (x y : Reg) (s : State) : Byte :=
  match s.cfg.shiftSource with
  | .vx => s.getV x
  | .vy => s.getV y

/-- The glyph offset of FX29, `5 * V[X]` with the whole byte (R172). -/
def glyphAddress (digit : Byte) : Word := BitVec.ofNat 16 (5 * digit.toNat)

/-- The hundreds, tens and ones of a byte, in that order (R174). -/
def decimalDigits (b : Byte) : List Byte :=
  [BitVec.ofNat 8 (b.toNat / 100), BitVec.ofNat 8 (b.toNat / 10 % 10), BitVec.ofNat 8 (b.toNat % 10)]

/-- `Keys[k]` (R11). -/
def keyPressed (keys : KeyVector) (k : Reg) : Bool := keys.getLsbD k.val

/-- The key a register value names: none at 0x10 and above (47_key_input.md R232). -/
def keyOfByte (b : Byte) : Option Reg := if h : b.toNat < 16 then some ⟨b.toNat, h⟩ else none

/-- `Nw`: the keys pressed now and not in the snapshot, lowest first (R233, R234). -/
def newKeys (keys snap : KeyVector) : List Reg :=
  (List.finRange 16).filter fun k => keyPressed keys k && !keyPressed snap k

/-- `choose(S)` of a non-empty set `k :: ks` (R236): the free number `n` selects a member, and every member is selected by
some number (DESIGN CHOICE, safe, log entry 6). -/
def chooseKey (n : Nat) (k : Reg) (ks : List Reg) : Reg :=
  (k :: ks)[n % (k :: ks).length]'(Nat.mod_lt _ (Nat.succ_pos _))

end Sys2Proof.Machine
end

