-- ==== Sys2Proof/Machine/Flags.lean ====
section
/-!
DEFINITION. Every flag computation the spec gives, and the write of a result with its flag (42_register_ops.md R147 to R152,
46_draw.md R212). A flag is the byte 0 or 1 written to VF (10_state.md R21).
-/

namespace Sys2Proof.Machine

/-- Register 15, `FLAG_REG` (00_scope.md R7). -/
def flagReg : Reg := 15

/-- A flag's byte. -/
def flagByte (b : Bool) : Byte := if b then 1 else 0

/-- The carry of ADD Vx, Vy: the unsigned sum exceeds 255 (R148). -/
def carryFlag (a b : Byte) : Byte := flagByte (255 < a.toNat + b.toNat)

/-- The not-borrow of SUB and SUBN: minuend ≥ subtrahend (R149, R151). -/
def notBorrowFlag (a b : Byte) : Byte := flagByte (b.toNat ≤ a.toNat)

/-- The bit a right shift by one shifts out, bit 0 (R150). -/
def shrFlag (a : Byte) : Byte := flagByte (a.getLsbD 0)

/-- The bit a left shift by one shifts out, bit 7 (R152). -/
def shlFlag (a : Byte) : Byte := flagByte (a.getLsbD 7)

/-- The collision flag of a draw (46_draw.md R212). -/
def collisionFlag (collided : Bool) : Byte := flagByte collided

/-- `WriteResultAndFlag(X, r, f)` (R147). -/
def writeResultAndFlag (x : Reg) (r f : Byte) (s : State) : State :=
  match s.cfg.flagOrder with
  | .flagLast => (s.setV x r).setV flagReg f
  | .resultLast => (s.setV flagReg f).setV x r

end Sys2Proof.Machine
end

