-- ==== Sys2Proof/Machine/Ops.lean ====
section
/-!
DEFINITION. The named operations the meanings are built from: memory (20_memory.md), the advance of pc (10_state.md R25),
the return stack (R28), reporting a fault (60_exceptions.md R301), the range check (00_scope.md R12), the fetch (20_memory.md
R55) and the timer tick (44_timers.md R193, R195).
-/

namespace Sys2Proof.Machine

/-! ## Memory -/

/-- What an address that is not listed reads as: its byte after the first reset with the default `FONT` (10_state.md R42,
R43). DEDUCED, unsafe (log entry 3). -/
def Memory.unlisted (a : Nat) : Byte := if h : a < 80 then defaultFont[a] else 0

/-- The byte at an address. -/
def Memory.read : Memory → Nat → Byte
  | [], a => Memory.unlisted a
  | (b, v) :: rest, a => if b = a then v else Memory.read rest a

/-- The list with one more cell, before the first cell of a higher address. -/
def Memory.insert (a : Nat) (v : Byte) : Memory → Memory
  | [] => [(a, v)]
  | c :: rest => if a < c.1 then (a, v) :: c :: rest else c :: Memory.insert a v rest

/-- The list without the cells of one address. -/
def Memory.erase (m : Memory) (a : Nat) : Memory := m.filter fun c => c.1 != a

/-- The memory with byte `v` at address `a`. -/
def Memory.write (m : Memory) (a : Nat) (v : Byte) : Memory :=
  if v = Memory.unlisted a then m.erase a else Memory.insert a v (m.erase a)

/-- The bytes `bs` written at `a`, `a + 1`, and so on, in ascending address order (R58). -/
def Memory.writeBytes (m : Memory) : Nat → List Byte → Memory
  | _, [] => m
  | a, b :: bs => Memory.writeBytes (m.write a b) (a + 1) bs

/-- The `n` bytes at `a`, `a + 1`, and so on. -/
def Memory.readBytes (m : Memory) (a : Nat) : Nat → List Byte
  | 0 => []
  | n + 1 => m.read a :: Memory.readBytes m (a + 1) n

/-- The canonical form: addresses strictly rising, all inside memory (R50), and no cell equal to what its address reads as
when it is not listed. Equal memories in this form are equal lists. -/
abbrev Memory.wf (m : Memory) : Prop :=
  m.Pairwise (fun c d => c.1 < d.1) ∧ ∀ c ∈ m, c.1 < memSize ∧ c.2 ≠ Memory.unlisted c.1

/-! ## The program counter (R25) -/

/-- `pc <- pc + 2`. -/
def State.advance (s : State) : State := { s with pc := s.pc + 2 }

/-- `pc <- pc + 4` when the condition holds, else `pc <- pc + 2` (R25 b; 41_skips.md). -/
def State.skipIf (s : State) (condition : Bool) : State := { s with pc := if condition then s.pc + 4 else s.pc + 2 }

/-! ## Faults (60_exceptions.md) -/

/-- Reporting a fault (R301): only Status changes, to `Faulted(f)`. Nothing traps (R300, R313), so this is all that "taking
an exception" is on this block, and there is no return from one. -/
def State.takeFault (f : Fault) (s : State) : State := { s with status := .faulted f }

/-- The `pc` field of a fault record (R302). -/
def Fault.recordedPc : Fault → Word
  | .unknownInstruction pc _ | .stackOverflow pc _ | .stackUnderflow pc _ => pc
  | .outOfBoundsAddress pc _ _ | .misalignedFetch pc | .invalidKeyIndex pc _ _ => pc

/-- The `word` field of a fault record, absent for a fetch fault (R302). -/
def Fault.recordedWord : Fault → Option Word
  | .unknownInstruction _ w | .stackOverflow _ w | .stackUnderflow _ w | .invalidKeyIndex _ w _ => some w
  | .outOfBoundsAddress _ w _ => w
  | .misalignedFetch _ => none

/-- The `addr` field of a fault record: the address of `OutOfBoundsAddress` or `MisalignedFetch`, or the value of
`InvalidKeyIndex` (R302). -/
def Fault.recordedAddr : Fault → Option Nat
  | .unknownInstruction _ _ | .stackOverflow _ _ | .stackUnderflow _ _ => none
  | .outOfBoundsAddress _ _ a => some a.toNat
  | .misalignedFetch pc => some pc.toNat
  | .invalidKeyIndex _ _ v => some v.toNat

/-- `CheckRange(addr, n)` (R12): the address it raises `OutOfBoundsAddress` with, `max(addr, MEM_SIZE)`, or none. A range
of no bytes is not checked. -/
def rangeFault (a : Word) (n : Nat) : Option Word :=
  if 1 ≤ n ∧ memSize ≤ a.toNat + n - 1 then some (if a.toNat < memSize then BitVec.ofNat 16 memSize else a) else none

/-- An instruction that accesses the `n` bytes at I: it raises `OutOfBoundsAddress` before it does anything (R62, R306), or
its effect is `t`. -/
def withRangeAtI (instr : Instr) (n : Nat) (s t : State) : Host.Outcome State Fault Refusal :=
  match rangeFault s.i n with
  | some a => .next (s.takeFault (.outOfBoundsAddress s.pc (some (encode instr)) a))
  | none => .next t

/-! ## The fetch (R55) -/

/-- `Fetch()`: the alignment check, then the range check, then the big-endian word. -/
def fetch (s : State) : Except Fault Word :=
  if s.pc.getLsbD 0 = true ∧ s.cfg.oddPcPolicy = .fault then .error (.misalignedFetch s.pc)
  else
    match rangeFault s.pc 2 with
    | some a => .error (.outOfBoundsAddress s.pc none a)
    | none => .ok (wordOfBytes (s.mem.read s.pc.toNat) (s.mem.read (s.pc.toNat + 1)))

/-! ## The timer tick -/

/-- One timer's tick: it saturates at zero (R193, R196). -/
def countdown (t : Byte) : Byte := if t = 0 then 0 else t - 1

/-- `TimerTick()` (R193). -/
def State.timerTick (s : State) : State := { s with dt := countdown s.dt, st := countdown s.st }

/-- The tick of an executed step, made only under `TIMER_POLICY = per_step` (R194, R195). -/
def State.tickPerStep (s : State) : State :=
  match s.cfg.timerPolicy with
  | .perStep => s.timerTick
  | .externalTick => s

/-- What a step does after the instruction: the tick, unless the instruction reported a fault (R195, R301). -/
def finishStep : Host.Outcome State Fault Refusal → Host.Outcome State Fault Refusal
  | .next t =>
    match t.status with
    | .faulted _ => .next t
    | .running | .awaitingKey _ _ => .next t.tickPerStep
  | .fault f => .fault f
  | .refused r => .refused r

/-! ## The host's word -/

/-- The bytes of a table word at the place of the next fetch. Besides the bytes, the next step needs Status Running
(70_reset_and_hazards.md R410), and for the optional row 8XY7 a block that has it (DESIGN CHOICE, safe, log entry 11). -/
def placeFetchWord (nbits w : Nat) (s : State) : State :=
  let word := tableWord nbits w
  { s with
    mem := if (rangeFault s.pc 2).isNone then s.mem.writeBytes s.pc.toNat (bytesOfWord word) else s.mem
    status := .running
    cfg := { s.cfg with
      hasSubn := s.cfg.hasSubn || ((decodeWord false word).isNone && (decodeWord true word).isSome) } }

end Sys2Proof.Machine
end

