-- ==== Sys2Proof/Machine/ControlFlow.lean ====
section
/-!
DEFINITION. Control flow (40_control_flow.md R100 to R104).
-/

namespace Sys2Proof.Machine

/-- The framebuffer with every pixel 0 (R100, 70_reset_and_hazards.md R400). -/
def Framebuffer.clear : Framebuffer := Vector.replicate 32 0

/-- CLS (R100). -/
def execCls (s : State) : Host.Outcome State Fault Refusal :=
  .next { s with fb := Framebuffer.clear }.advance

/-- RET (R101): pops the return address into pc, with no further advance. -/
def execRet (s : State) : Host.Outcome State Fault Refusal :=
  if h : s.sp.val = 0 then .next (s.takeFault (.stackUnderflow s.pc (encode .ret)))
  else .next { s with
    sp := ⟨s.sp.val - 1, by omega⟩
    pc := s.stack[s.sp.val - 1] }

/-- JP addr (R102). -/
def execJp (nnn : Addr) (s : State) : Host.Outcome State Fault Refusal :=
  .next { s with pc := addrWord nnn }

/-- CALL addr (R103): pushes `pc + 2` and jumps. -/
def execCall (nnn : Addr) (s : State) : Host.Outcome State Fault Refusal :=
  if h : s.sp.val = stackDepth then .next (s.takeFault (.stackOverflow s.pc (encode (.call nnn))))
  else .next { s with
    stack := s.stack.set s.sp.val (s.pc + 2) (by unfold stackDepth at h; omega)
    sp := ⟨s.sp.val + 1, by unfold stackDepth at h; omega⟩
    pc := addrWord nnn }

/-- JP V0, addr (R104): the register added is V0 whatever the word's X field holds. -/
def execJpV0 (nnn : Addr) (s : State) : Host.Outcome State Fault Refusal :=
  .next { s with pc := addrWord nnn + byteWord (s.getV 0) }

end Sys2Proof.Machine
end

