-- ==== Sys2Proof/Machine/Draw.lean ====
section
/-!
DEFINITION. The sprite compositor and DRW (46_draw.md R210 to R217).
-/

namespace Sys2Proof.Machine

/-- `FB[y][x]` (00_scope.md R11). -/
def Framebuffer.pixel (fb : Framebuffer) (y : Fin 32) (x : Fin 64) : Bool := fb[y.val].getLsbD x.val

/-- `FB[y][x] <- FB[y][x] XOR bit` (R211). -/
def Framebuffer.xorPixel (fb : Framebuffer) (y : Fin 32) (x : Fin 64) (bit : Bool) : Framebuffer :=
  if bit then fb.set y.val (fb[y.val] ^^^ BitVec.twoPow 64 x.val) else fb

/-- One sprite bit: the pixel is XORed, and a pixel that was 1 under a set bit makes the draw collide (R211, R212). -/
def plotBit (y : Fin 32) (x : Fin 64) (bit : Bool) (canvas : Framebuffer × Bool) : Framebuffer × Bool :=
  (canvas.1.xorPixel y x bit, canvas.2 || (bit && canvas.1.pixel y x))

/-- One sprite byte in row `y`: its 8 bits, the most significant first, at columns `(col + i) mod 64` (R211). -/
def plotByte (col : Nat) (y : Fin 32) (b : Byte) (canvas : Framebuffer × Bool) : Framebuffer × Bool :=
  (List.range 8).foldl (fun c i => plotBit y (Fin.ofNat 64 (col + i)) (b.getLsbD (7 - i)) c) canvas

/-- The sprite's bytes in rows `row mod 32`, `(row + 1) mod 32`, and so on (R211). -/
def plotBytes (col : Nat) : Nat → List Byte → Framebuffer × Bool → Framebuffer × Bool
  | _, [], canvas => canvas
  | row, b :: bs, canvas => plotBytes col (row + 1) bs (plotByte col (Fin.ofNat 32 row) b canvas)

/-- `Composite(col, row, h)` (R211) after its range check: the framebuffer and, last, VF (R212). -/
def composite (col row : Byte) (h : Nat) (s : State) : State :=
  let drawn := plotBytes col.toNat row.toNat (s.mem.readBytes s.i.toNat h) (s.fb, false)
  { s with fb := drawn.1 }.setV flagReg (collisionFlag drawn.2)

/-- DRW Vx, Vy, nibble (R210): the `DRAW_H0` check (R216), the range check, then the compositor with the coordinates read
before it (R214). -/
def execDrw (x y : Reg) (n : Nibble) (s : State) : Host.Outcome State Fault Refusal :=
  if n = 0 ∧ s.cfg.drawH0 = .fault then .next (s.takeFault (.unknownInstruction s.pc (encode (.drw x y n))))
  else withRangeAtI (.drw x y n) n.toNat s (composite (s.getV x) (s.getV y) n.toNat s).advance

end Sys2Proof.Machine
end

