-- ==== Sys2Proof/Machine/KeyInput.lean ====
section
/-!
DEFINITION. Key input and the key wait (47_key_input.md R230 to R238).
-/

namespace Sys2Proof.Machine

/-- A key skip: `InvalidKeyIndex` for a value that names no key (R232), else a skip when the key's state is `want`. -/
def skipOnKey (instr : Instr) (x : Reg) (want : Bool) (s : State) : Host.Outcome State Fault Refusal :=
  match keyOfByte (s.getV x) with
  | none => .next (s.takeFault (.invalidKeyIndex s.pc (encode instr) (s.getV x)))
  | some k => .next (s.skipIf (keyPressed s.keys k == want))

/-- SKP Vx (R230). -/
def execSkp (x : Reg) (s : State) : Host.Outcome State Fault Refusal := skipOnKey (.skp x) x true s

/-- SKNP Vx (R231). -/
def execSknp (x : Reg) (s : State) : Host.Outcome State Fault Refusal := skipOnKey (.sknp x) x false s

/-- `V[x] <- choose(Nw)` for `Nw = k :: ks`, and `pc <- pc + 2` (R233, R235, R236): takes one draw. -/
def captureKey (x k : Reg) (ks : List Reg) (s : State) : State :=
  { s.setV x (BitVec.ofNat 8 (chooseKey (Config.drawChoice s.draws) k ks).val) with draws := s.draws + 1 }.advance

/-- The snapshot FX0A starts its wait with (R233, R234). -/
def firstSnapshot (s : State) : KeyVector :=
  match s.cfg.keyWaitTrigger with
  | .edge => s.keys
  | .level => 0

/-- LD Vx, K in the step that fetches it (R233). -/
def execLdKey (x : Reg) (s : State) : Host.Outcome State Fault Refusal :=
  match newKeys s.keys (firstSnapshot s) with
  | [] => .next { s with status := .awaitingKey x (firstSnapshot s) }
  | k :: ks => .next (captureKey x k ks s)

/-- The snapshot after a suspended step: refreshed under `edge`, kept under `level` (R235). -/
def nextSnapshot (snap : KeyVector) (s : State) : KeyVector :=
  match s.cfg.keyWaitTrigger with
  | .edge => s.keys
  | .level => snap

/-- `WaitStep(x, snap)` (R235): a step while a key is awaited. -/
def waitStep (x : Reg) (snap : KeyVector) (s : State) : State :=
  match newKeys s.keys snap with
  | [] => { s with status := .awaitingKey x (nextSnapshot snap s) }
  | k :: ks => { captureKey x k ks s with status := .running }.tickPerStep

end Sys2Proof.Machine
end

