-- ==== Sys2Proof/Machine/MemoryIndex.lean ====
section
/-!
DEFINITION. Memory and index-register instructions (43_memory_index.md R170 to R177). Every memory operand is at `I + k`.
-/

namespace Sys2Proof.Machine

/-- LD I, addr (R170). -/
def execLdI (nnn : Addr) (s : State) : Host.Outcome State Fault Refusal :=
  .next { s with i := addrWord nnn }.advance

/-- ADD I, Vx (R171): modulo 2^16, no flag, no check (R56). -/
def execAddI (x : Reg) (s : State) : Host.Outcome State Fault Refusal :=
  .next { s with i := s.i + byteWord (s.getV x) }.advance

/-- LD F, Vx (R172). -/
def execLdF (x : Reg) (s : State) : Host.Outcome State Fault Refusal :=
  .next { s with i := glyphAddress (s.getV x) }.advance

/-- LD B, Vx (R174): the decimal digits at I, I + 1, I + 2. -/
def execLdB (x : Reg) (s : State) : Host.Outcome State Fault Refusal :=
  withRangeAtI (.ldB x) 3 s
    { s with mem := s.mem.writeBytes s.i.toNat (decimalDigits (s.getV x)) }.advance

/-- LD [I], Vx (R175): stores V0 to VX and moves I past them. -/
def execStoreRegs (x : Reg) (s : State) : Host.Outcome State Fault Refusal :=
  withRangeAtI (.storeRegs x) (x.val + 1) s
    { s with
      mem := s.mem.writeBytes s.i.toNat (regsUpTo x s)
      i := s.i + BitVec.ofNat 16 (x.val + 1) }.advance

/-- LD Vx, [I] (R176): loads V0 to VX and moves I past the bytes. -/
def execLoadRegs (x : Reg) (s : State) : Host.Outcome State Fault Refusal :=
  withRangeAtI (.loadRegs x) (x.val + 1) s
    { s with
      v := writeRegsFrom s.v 0 (s.mem.readBytes s.i.toNat (x.val + 1))
      i := s.i + BitVec.ofNat 16 (x.val + 1) }.advance

end Sys2Proof.Machine
end

