-- ==== Sys2Proof/Machine/Random.lean ====
section
/-!
DEFINITION. The random instruction (45_random.md R200, R201).
-/

namespace Sys2Proof.Machine

/-- `draw_byte()` (R200): the free byte of the next draw. -/
def drawnByte (s : State) : Byte := Config.drawByte s.draws

/-- RND Vx, byte (R201): takes one draw. -/
def execRnd (x : Reg) (nn : Byte) (s : State) : Host.Outcome State Fault Refusal :=
  .next { s.setV x (drawnByte s &&& nn) with draws := s.draws + 1 }.advance

end Sys2Proof.Machine
end

