-- ==== Sys2Proof/Machine/RegisterOps.lean ====
section
/-!
DEFINITION. Register operations (42_register_ops.md R140 to R153). Operands are read before any write (R147).
-/

namespace Sys2Proof.Machine

/-- LD Vx, byte (R140). -/
def execLdImm (x : Reg) (nn : Byte) (s : State) : Host.Outcome State Fault Refusal :=
  .next (s.setV x nn).advance

/-- ADD Vx, byte (R141): no flag. -/
def execAddImm (x : Reg) (nn : Byte) (s : State) : Host.Outcome State Fault Refusal :=
  .next (s.setV x (s.getV x + nn)).advance

/-- LD Vx, Vy (R142). -/
def execLdReg (x y : Reg) (s : State) : Host.Outcome State Fault Refusal :=
  .next (s.setV x (s.getV y)).advance

/-- OR Vx, Vy (R143, R146: no flag). -/
def execOrReg (x y : Reg) (s : State) : Host.Outcome State Fault Refusal :=
  .next (s.setV x (s.getV x ||| s.getV y)).advance

/-- AND Vx, Vy (R144, R146: no flag). -/
def execAndReg (x y : Reg) (s : State) : Host.Outcome State Fault Refusal :=
  .next (s.setV x (s.getV x &&& s.getV y)).advance

/-- XOR Vx, Vy (R145, R146: no flag). -/
def execXorReg (x y : Reg) (s : State) : Host.Outcome State Fault Refusal :=
  .next (s.setV x (s.getV x ^^^ s.getV y)).advance

/-- ADD Vx, Vy (R148). -/
def execAddReg (x y : Reg) (s : State) : Host.Outcome State Fault Refusal :=
  .next (writeResultAndFlag x (s.getV x + s.getV y) (carryFlag (s.getV x) (s.getV y)) s).advance

/-- SUB Vx, Vy (R149): VX is the minuend. -/
def execSubReg (x y : Reg) (s : State) : Host.Outcome State Fault Refusal :=
  .next (writeResultAndFlag x (s.getV x - s.getV y) (notBorrowFlag (s.getV x) (s.getV y)) s).advance

/-- SHR Vx (R150). -/
def execShr (x y : Reg) (s : State) : Host.Outcome State Fault Refusal :=
  .next (writeResultAndFlag x (shiftOperand x y s >>> 1) (shrFlag (shiftOperand x y s)) s).advance

/-- SHL Vx (R152). -/
def execShl (x y : Reg) (s : State) : Host.Outcome State Fault Refusal :=
  .next (writeResultAndFlag x (shiftOperand x y s <<< 1) (shlFlag (shiftOperand x y s)) s).advance

/-- SUBN Vx, Vy (R151): VY is the minuend. Where `HAS_SUBN` is false no word decodes to it (30_encoding.md R77). -/
def execSubn (x y : Reg) (s : State) : Host.Outcome State Fault Refusal :=
  .next (writeResultAndFlag x (s.getV y - s.getV x) (notBorrowFlag (s.getV y) (s.getV x)) s).advance

end Sys2Proof.Machine
end

