-- ==== Sys2Proof/Machine/Timers.lean ====
section
/-!
DEFINITION. Timer instructions (44_timers.md R190 to R192). The tick of the same step comes after them (R195).
-/

namespace Sys2Proof.Machine

/-- LD Vx, DT (R190). -/
def execLdFromDt (x : Reg) (s : State) : Host.Outcome State Fault Refusal :=
  .next (s.setV x s.dt).advance

/-- LD DT, Vx (R191). -/
def execLdDt (x : Reg) (s : State) : Host.Outcome State Fault Refusal :=
  .next { s with dt := s.getV x }.advance

/-- LD ST, Vx (R192). -/
def execLdSt (x : Reg) (s : State) : Host.Outcome State Fault Refusal :=
  .next { s with st := s.getV x }.advance

end Sys2Proof.Machine
end

