-- ==== Sys2Proof/Machine/Step.lean ====
section
/-!
DEFINITION. One step (70_reset_and_hazards.md R410) and the placing of the next instruction's word.
-/

namespace Sys2Proof.Machine

/-- The step of a running engine: fetch, decode, execute, tick; a fault of the fetch or of the decoder is reported. -/
def runStep (s : State) : Host.Outcome State Fault Refusal :=
  match fetch s with
  | .error f => .next (s.takeFault f)
  | .ok w =>
    match decodeWord s.cfg.hasSubn w with
    | none => .next (s.takeFault (.unknownInstruction s.pc w))
    | some i => finishStep (exec i s)

/-- `Step` (R410). In a faulted state it answers the recorded fault and there is no new state (60_exceptions.md R311); the
step that raises a fault answers the state whose Status records it (R301; DEDUCED, safe, log entry 8). -/
def step (s : State) : Host.Outcome State Fault Refusal :=
  match s.status with
  | .faulted f => .fault f
  | .awaitingKey x snap => .next (waitStep x snap s)
  | .running => runStep s

/-- `s` with the table word `w` where the next step fetches (log entry 11). -/
def State.withFetchWord (s : State) (nbits w : Nat) : State := placeFetchWord nbits w s

end Sys2Proof.Machine
end

