-- ==== Sys2Proof/Machine/HostOps.lean ====
section
/-!
DEFINITION. The host's operations other than Step (10_state.md R44), the state at creation (R43) and the observation (R46).
-/

namespace Sys2Proof.Machine

/-- `Reset` (70_reset_and_hazards.md R400, R401): writes everything R400 names and nothing else; the stack slots, memory
0x050 to 0xFFF, the parameters and the counter of draws are kept. -/
def resetMachine (s : State) : State :=
  { s with
    fb := Framebuffer.clear
    dt := 0
    st := 0
    sp := 0
    i := 0
    pc := BitVec.ofNat 16 progStart
    mem := s.mem.writeBytes 0 s.cfg.font.toList
    v := Vector.replicate 16 0
    keys := 0
    status := .running }

/-- What `Load` returns to its caller (20_memory.md R64). -/
inductive LoadResult where
  | ok (s : State)
  | imageTooLarge
  deriving DecidableEq, Repr

/-- `Load(image)` (R64, R65): the bounds check, then the copy to 0x200; nothing else changes. -/
def load (image : List Byte) (s : State) : LoadResult :=
  if maxImage < image.length then .imageTooLarge
  else .ok { s with mem := s.mem.writeBytes progStart image }

/-- `SetKeys(k)` (10_state.md R35, R44). -/
def setKeys (k : KeyVector) (s : State) : State := { s with keys := k }

/-- `Tick60` (44_timers.md R194): offered only under `TIMER_POLICY = external_tick`; none where it "does not exist". -/
def tick60 (s : State) : Option State :=
  match s.cfg.timerPolicy with
  | .perStep => none
  | .externalTick => some s.timerTick

/-- The memory in which every byte is 0: the glyph bytes of the default font are listed as 0. -/
def zeroMemory : Memory := Memory.writeBytes [] 0 (List.replicate 80 0)

/-- The state at creation (10_state.md R43): every memory byte 0. The source says nothing of the other fields before the
first reset, which overwrites every one of them but the stack slots (DESIGN CHOICE, safe, log entry 14). -/
def State.created (params : Params) : State := { State.reset with mem := zeroMemory, cfg := params }

/-- What the host can observe (R46): everything but the stack slots at and above SP. -/
structure Observation where
  v      : Vector Byte 16
  i      : Word
  pc     : Word
  sp     : Fin 17
  stack  : List Word
  dt     : Byte
  st     : Byte
  fb     : Framebuffer
  keys   : KeyVector
  mem    : Memory
  status : Status
  deriving DecidableEq, Repr

/-- The observation of a state (R46). -/
def State.observe (s : State) : Observation where
  v := s.v
  i := s.i
  pc := s.pc
  sp := s.sp
  stack := s.stack.toList.take s.sp.val
  dt := s.dt
  st := s.st
  fb := s.fb
  keys := s.keys
  mem := s.mem
  status := s.status

end Sys2Proof.Machine
end

