-- ==== Sys2Proof/Safety.lean ====
section
/-!
DEFINITION. The terms claims are stated in: what part of the state an instruction leaves alone, the invariant of the
machine, the host's operations as a list, and the sprite a draw lays over the framebuffer.
-/

namespace Sys2Proof.Machine

/-! ## Frames -/

/-- The parts of the state a frame speaks of: every field of State. -/
inductive Part where
  | regs | index | pc | sp | stack | dt | st | fb | keys | mem | status | params | draws
  deriving DecidableEq, Repr

/-- `t` has the part as `s` has it. Registers, pixels and memory bytes are compared one by one. -/
def Part.same (s t : State) : Part → Prop
  | .regs => ∀ r, t.getV r = s.getV r
  | .index => t.i = s.i
  | .pc => t.pc = s.pc
  | .sp => t.sp = s.sp
  | .stack => ∀ j : Nat, t.stack[j]? = s.stack[j]?
  | .dt => t.dt = s.dt
  | .st => t.st = s.st
  | .fb => ∀ y x, t.fb.pixel y x = s.fb.pixel y x
  | .keys => t.keys = s.keys
  | .mem => ∀ a, t.mem.read a = s.mem.read a
  | .status => t.status = s.status
  | .params => t.cfg = s.cfg
  | .draws => t.draws = s.draws

/-- Every part of the state is unchanged except those listed. -/
def Unchanged (except : List Part) (s t : State) : Prop := ∀ p, p ∉ except → Part.same s t p

/-- Every general register is unchanged except those listed. -/
def RegsUnchanged (except : List Reg) (s t : State) : Prop := ∀ r, r ∉ except → t.getV r = s.getV r

/-- Every byte of memory outside the `n` bytes at `a` reads as before. -/
def MemUnchangedOutside (a n : Nat) (s t : State) : Prop := ∀ b, b < a ∨ a + n ≤ b → t.mem.read b = s.mem.read b

/-- What an instruction that produces a result `r` for VX and a flag `f` for VF leaves in the registers (42_register_ops.md
R147): for X = 0xF the write that `FLAG_ORDER` puts last is the one that stays. -/
def ResultAndFlag (x : Reg) (r f : Byte) (s t : State) : Prop :=
  (x ≠ 15 → t.getV x = r ∧ t.getV 15 = f) ∧
  (x = 15 → s.cfg.flagOrder = .flagLast → t.getV 15 = f) ∧
  (x = 15 → s.cfg.flagOrder = .resultLast → t.getV 15 = r) ∧
  RegsUnchanged [x, 15] s t

/-- The `n` bytes at `a` lie inside memory (00_scope.md R12). -/
def InMemory (a : Word) (n : Nat) : Prop := a.toNat + n ≤ memSize

/-- The fault an access of a range outside memory reports: `OutOfBoundsAddress(max(addr, 0x1000))` (R12, R306). -/
def outOfBoundsAt (s : State) (word : Option Word) (a : Word) : Fault :=
  .outOfBoundsAddress s.pc word (BitVec.ofNat 16 (max a.toNat memSize))

/-- The engine can fetch at pc: the alignment its `ODD_PC_POLICY` asks for, and two bytes inside memory (20_memory.md R55). -/
def Fetchable (s : State) : Prop :=
  (s.pc.toNat % 2 = 1 → s.cfg.oddPcPolicy = .fetch) ∧ InMemory s.pc 2

/-- The word at pc (R55). -/
def wordAtPc (s : State) : Word := wordOfBytes (s.mem.read s.pc.toNat) (s.mem.read (s.pc.toNat + 1))

/-! ## The sprite (46_draw.md R211) -/

/-- The sprite of `h` bytes at I, drawn at column `col` and row `row`, has a set bit at the pixel (y, x). -/
def SpriteCovers (s : State) (col row : Byte) (h : Nat) (y : Fin 32) (x : Fin 64) : Prop :=
  ∃ j < h, ∃ b < 8, (row.toNat + j) % 32 = y.val ∧ (col.toNat + b) % 64 = x.val ∧
    (s.mem.read (s.i.toNat + j)).getLsbD (7 - b) = true

/-- DXYN runs: it is not the DXY0 that `DRAW_H0 = fault` rejects (R216), and its bytes lie inside memory (R210). -/
def DrawRuns (n : Nibble) (s : State) : Prop :=
  ¬ (n = 0 ∧ s.cfg.drawH0 = .fault) ∧ (n ≠ 0 → InMemory s.i n.toNat)

/-! ## The invariant -/

/-- What every reachable state satisfies. -/
structure Invariant (s : State) : Prop where
  /-- Memory keeps its canonical form. -/
  memory : s.mem.wf
  /-- pc stays at or below 0x10FE (10_state.md R26). -/
  pcBound : s.pc.toNat ≤ 0x10FE
  /-- An occupied stack slot holds a return address, at most 0x1000. -/
  returnBound : ∀ j (_ : j < s.sp.val), s.stack[j].toNat ≤ 0x1000
  /-- Under `ODD_PC_POLICY = fault` a return address is even (10_state.md R23). -/
  returnEven : s.cfg.oddPcPolicy = .fault → ∀ j (_ : j < s.sp.val), s.stack[j].toNat % 2 = 0
  /-- While a key is awaited pc holds the address of the FX0A (47_key_input.md R235). -/
  waitAtInstruction : ∀ x snap, s.status = .awaitingKey x snap → s.pc.toNat + 2 ≤ memSize
  /-- Under `level` the snapshot of a wait stays 0 (R234). -/
  waitSnapshot : ∀ x snap, s.status = .awaitingKey x snap → s.cfg.keyWaitTrigger = .level → snap = 0
  /-- A fault is precise: its record holds the pc the state holds (60_exceptions.md R301, R302). -/
  faultPrecise : ∀ f, s.status = .faulted f → f.recordedPc = s.pc

/-! ## The host's operations in sequence (10_state.md R44) -/

/-- The five operations of R44. -/
inductive BlockOp where
  | reset
  | load (image : List Byte)
  | setKeys (keys : KeyVector)
  | step
  | tick60
  deriving DecidableEq, Repr

/-- The state after an operation. `Load` of too large an image, `Step` in a faulted state and a `Tick60` that the policy
does not offer leave the state as it is (20_memory.md R64, 60_exceptions.md R311, 44_timers.md R194; log entries 8, 15). -/
def BlockOp.apply (op : BlockOp) (s : State) : State :=
  match op with
  | .reset => resetMachine s
  | .load image =>
    match Machine.load image s with
    | .ok t => t
    | .imageTooLarge => s
  | .setKeys keys => Machine.setKeys keys s
  | .step =>
    match Machine.step s with
    | .next t => t
    | .fault _ => s
    | .refused _ => s
  | .tick60 => (Machine.tick60 s).getD s

/-- The state after a list of operations, each atomic and in the host's order (R45; log entry 16). -/
def runOps (s : State) (ops : List BlockOp) : State := ops.foldl (fun t op => op.apply t) s

/-- The boot of 70_reset_and_hazards.md R405: creation, then Reset. -/
def boot (params : Params) : State := resetMachine (State.created params)

/-- A state some sequence of operations reaches from a boot. -/
def Reachable (s : State) : Prop := ∃ params ops, s = runOps (boot params) ops

/-! ## Outcomes -/

/-- The state of an outcome that is a next state. -/
def nextState : Host.Outcome State Fault Refusal → Option State
  | .next t => some t
  | .fault _ => none
  | .refused _ => none

/-- Two outcomes are both a next state, the two related by `R`, or the same fault. -/
def OutcomesRelate (R : State → State → Prop) (o o' : Host.Outcome State Fault Refusal) : Prop :=
  (∃ t t', o = .next t ∧ o' = .next t' ∧ R t t') ∨ (∃ f, o = .fault f ∧ o' = .fault f)

/-- The states differ in the sound timer at most. -/
def DifferInSound (s s' : State) : Prop := s' = { s with st := s'.st }

/-- The states differ in stack slots at or above SP at most (10_state.md R30). -/
def DifferInDeadSlots (s s' : State) : Prop :=
  s' = { s with stack := s'.stack } ∧ ∀ j (_ : j < s.sp.val), s'.stack[j] = s.stack[j]

end Sys2Proof.Machine
end

