-- ==== Sys2Proof/Certificates/Slice0/Obligations.lean ====
section
/-!
DEFINITION. The statements for the provers. An instruction's statement gives its next state whole: the new values, and
`Unchanged` for every other part of the state (registers, pixels and memory bytes one by one). A "(D<n>)" names the spec's
own decision that a clause rests on (92_eei_decisions.md; log entry 12); the bit patterns in the decoding clauses are general
knowledge by the spec's own mark (30_encoding.md R76; log entry 13).
-/

open Sys2Proof Sys2Proof.Machine

/-! ## Encoding (30_encoding.md) -/

/-- R70, R72, R73, R76, R77: every instruction of the block is what its word decodes to, with every operand. -/
def Obligations.DecodeOfEncodeGivesInstruction : Prop :=
  ∀ (hasSubn : Bool) (i : Instr), i.wellFormed hasSubn = true → decodeWord hasSubn (encode i) = some i

/-- R77: a word decodes to at most one instruction of the block, whose encoding is that word. -/
def Obligations.EncodeOfDecodeGivesWord : Prop :=
  ∀ (hasSubn : Bool) (w : Word) (i : Instr), decodeWord hasSubn w = some i → encode i = w ∧ i.wellFormed hasSubn = true

/-- R77, R78 against opcode_table.json: the decoder rejects exactly the words no row of the block's table covers, and gives
a covered word an instruction of a row that covers it. -/
def Obligations.DecoderAgreesWithOpcodeTable : Prop :=
  ∀ (hasSubn : Bool) (w : Word),
    (decodeWord hasSubn w = none ↔ ∀ r ∈ opcodeRowsOf hasSubn, r.covers w = false) ∧
    (∀ i, decodeWord hasSubn w = some i → i.row ∈ opcodeRowsOf hasSubn ∧ i.row.covers w = true)

/-- R79: a word is of one row of opcode_table.json at most. -/
def Obligations.OpcodeRowsDoNotOverlap : Prop :=
  opcodeRows.Pairwise fun r q => ∀ w : Word, ¬ (r.covers w = true ∧ q.covers w = true)

/-- R55, R58, R71: the bytes of an instruction, the high one first, decode to it and the decoder consumes just them. -/
def Obligations.DecodeOfEncodedBytesLeavesTheRest : Prop :=
  ∀ (hasSubn : Bool) (i : Instr) (rest : List Byte), i.wellFormed hasSubn = true →
    encodeBytes i = [BitVec.ofNat 8 ((encode i).toNat / 256), BitVec.ofNat 8 ((encode i).toNat % 256)] ∧
    decode hasSubn (encodeBytes i ++ rest) = .ok (i, rest)

/-- Words the spec writes out (40_control_flow.md to 47_key_input.md, the examples) decode to their instructions. -/
def Obligations.ExampleWordsDecode : Prop :=
  decodeWord false 0x00E0#16 = some .cls ∧ decodeWord false 0x2208#16 = some (.call 0x208#12) ∧
  decodeWord false 0x3342#16 = some (.seImm 3 0x42#8) ∧ decodeWord false 0x8015#16 = some (.subReg 0 1) ∧
  decodeWord false 0xF533#16 = some (.ldB 5) ∧ decodeWord false 0xF115#16 = some (.ldDt 1) ∧
  decodeWord false 0xC30F#16 = some (.rnd 3 0x0F#8) ∧ decodeWord false 0xD015#16 = some (.drw 0 1 5#4) ∧
  decodeWord false 0xE1A1#16 = some (.sknp 1) ∧ decodeWord false 0xFFFF#16 = none ∧
  decodeWord false 0x8017#16 = none ∧ decodeWord true 0x8017#16 = some (.subn 0 1)

/-! ## The step (70_reset_and_hazards.md, 60_exceptions.md) -/

/-- R410: where the word at pc decodes to `i`, a running step is `exec i`, and then the timer tick under `per_step` unless
the instruction reported a fault. -/
def Obligations.StepRunsDecodedInstruction : Prop :=
  ∀ (s t : State) (i : Instr), s.status = .running → Fetchable s → decodeWord s.cfg.hasSubn (wordAtPc s) = some i →
    exec i s = .next t →
    ((∀ f, t.status ≠ .faulted f) → s.cfg.timerPolicy = .perStep → step s = .next t.timerTick) ∧
    ((∀ f, t.status ≠ .faulted f) → s.cfg.timerPolicy = .externalTick → step s = .next t) ∧
    (∀ f, t.status = .faulted f → step s = .next t)

/-- Log entry 11, the model's own interface: after the word of an instruction is placed at a fetchable pc, the next step
runs that instruction. -/
def Obligations.PlacedWordRunsNext : Prop :=
  ∀ (s : State) (i : Instr), Fetchable s →
    step (s.withFetchWord 16 (encode i).toNat) = finishStep (exec i (s.withFetchWord 16 (encode i).toNat))

/-- R55, R78, R303, R306, R307, R310 (D6, D24): the three faults of fetch and decode, in their order of priority. -/
def Obligations.FetchAndDecodeFaults : Prop :=
  ∀ s : State, s.status = .running →
    (s.pc.toNat % 2 = 1 ∧ s.cfg.oddPcPolicy = .fault → step s = .next (s.takeFault (.misalignedFetch s.pc))) ∧
    (¬ (s.pc.toNat % 2 = 1 ∧ s.cfg.oddPcPolicy = .fault) → ¬ InMemory s.pc 2 →
      step s = .next (s.takeFault (outOfBoundsAt s none s.pc))) ∧
    (Fetchable s → decodeWord s.cfg.hasSubn (wordAtPc s) = none →
      step s = .next (s.takeFault (.unknownInstruction s.pc (wordAtPc s))))

/-- R301: a step that raises a fault changes Status, to the fault, and nothing else. -/
def Obligations.FaultingStepChangesOnlyStatus : Prop :=
  ∀ (s t : State) (f : Fault), s.status = .running → step s = .next t → t.status = .faulted f →
    t = { s with status := .faulted f }

/-- R302 (D29): the record of a raised fault: the faulting instruction's address, its word exactly where it was fetched,
and the address or value at fault, which is outside memory, odd, or above 0xF. -/
def Obligations.FaultRecordNamesTheInstruction : Prop :=
  ∀ (s t : State) (f : Fault), s.status = .running → step s = .next t → t.status = .faulted f →
    f.recordedPc = s.pc ∧
    (∀ w, f.recordedWord = some w → Fetchable s ∧ w = wordAtPc s) ∧ (f.recordedWord = none → ¬ Fetchable s) ∧
    (match f with
      | .outOfBoundsAddress _ _ a => f.recordedAddr = some a.toNat ∧ memSize ≤ a.toNat
      | .misalignedFetch _ => f.recordedAddr = some s.pc.toNat ∧ s.pc.toNat % 2 = 1
      | .invalidKeyIndex _ _ v => f.recordedAddr = some v.toNat ∧ 15 < v.toNat
      | .unknownInstruction _ _ | .stackOverflow _ _ | .stackUnderflow _ _ => f.recordedAddr = none)

/-- R309, R311 as log entry 8 reads them: a step answers a fault exactly in a faulted state, and then the recorded one;
every other step answers a next state. -/
def Obligations.StepAnswersFaultOnlyWhenFaulted : Prop :=
  ∀ s : State, (∀ f, s.status = .faulted f → step s = .fault f) ∧
    ((∀ f, s.status ≠ .faulted f) → ∃ t, step s = .next t)

/-- R25: where an instruction leaves pc. -/
def Obligations.PcAfterInstruction : Prop :=
  ∀ (i : Instr) (s t : State), exec i s = .next t →
    (match i with
      | .seImm _ _ | .sneImm _ _ | .seReg _ _ | .sneReg _ _ => t.pc = s.pc + 2 ∨ t.pc = s.pc + 4
      | .skp _ | .sknp _ => t.pc = s.pc + 2 ∨ t.pc = s.pc + 4 ∨ (∃ f, t = s.takeFault f)
      | .jp nnn => t.pc.toNat = nnn.toNat
      | .jpV0 nnn => t.pc.toNat = nnn.toNat + (s.getV 0).toNat
      | .call nnn => t.pc.toNat = nnn.toNat ∨ (∃ f, t = s.takeFault f)
      | .ret => s.stack[s.sp.val - 1]? = some t.pc ∨ (∃ f, t = s.takeFault f)
      | .ldKey x => t.pc = s.pc + 2 ∨ (∃ snap, t = { s with status := .awaitingKey x snap })
      | .ldB _ | .storeRegs _ | .loadRegs _ | .drw _ _ _ => t.pc = s.pc + 2 ∨ (∃ f, t = s.takeFault f)
      | _ => t.pc = s.pc + 2)

/-- R27, R28, R31, R33, R35, R37, R60: which instructions write each part of the state that few instructions write. -/
def Obligations.WritersOfEachPart : Prop :=
  ∀ (i : Instr) (s t : State), exec i s = .next t →
    (t.i ≠ s.i → (∃ n, i = .ldI n) ∨ ∃ x, i = .addI x ∨ i = .ldF x ∨ i = .storeRegs x ∨ i = .loadRegs x) ∧
    (t.sp ≠ s.sp ∨ t.stack ≠ s.stack → i = .ret ∨ ∃ n, i = .call n) ∧
    (t.dt ≠ s.dt → ∃ x, i = .ldDt x) ∧
    (t.st ≠ s.st → ∃ x, i = .ldSt x) ∧
    (t.fb ≠ s.fb → i = .cls ∨ ∃ x y n, i = .drw x y n) ∧
    (t.mem ≠ s.mem → ∃ x, i = .ldB x ∨ i = .storeRegs x) ∧
    (t.draws ≠ s.draws → (∃ x nn, i = .rnd x nn) ∨ ∃ x, i = .ldKey x) ∧
    (t.status ≠ s.status → (∃ x, i = .ldKey x) ∨ ∃ f, t = s.takeFault f) ∧
    t.keys = s.keys ∧ t.cfg = s.cfg

/-- R21: VF changes as a flag in the named instructions alone; in every other it changes only as a register the instruction
names as its destination. -/
def Obligations.FlagWritersAreTheNamedOnes : Prop :=
  ∀ (i : Instr) (s t : State), exec i s = .next t → t.getV 15 ≠ s.getV 15 →
    (∃ x y, i = .addReg x y ∨ i = .subReg x y ∨ i = .shr x y ∨ i = .shl x y ∨ i = .subn x y) ∨
    (∃ x y n, i = .drw x y n) ∨
    (∃ nn, i = .ldImm 15 nn ∨ i = .addImm 15 nn ∨ i = .rnd 15 nn) ∨
    (∃ y, i = .ldReg 15 y ∨ i = .orReg 15 y ∨ i = .andReg 15 y ∨ i = .xorReg 15 y) ∨
    i = .loadRegs 15 ∨ i = .ldFromDt 15 ∨ i = .ldKey 15

/-! ## Control flow (40_control_flow.md) -/

/-- R100. -/
def Obligations.ClsClearsFramebuffer : Prop :=
  ∀ s : State, decodeWord s.cfg.hasSubn 0x00E0#16 = some .cls ∧
    ∃ t, exec .cls s = .next t ∧ (∀ y x, t.fb.pixel y x = false) ∧ t.pc = s.pc + 2 ∧ Unchanged [.fb, .pc] s t

/-- R101 (D8): RET pops the return address into pc, and underflows with no active call. -/
def Obligations.RetPopsOrUnderflows : Prop :=
  ∀ s : State,
    (s.sp.val ≠ 0 → ∃ t, exec .ret s = .next t ∧ t.sp.val + 1 = s.sp.val ∧ s.stack[t.sp.val]? = some t.pc ∧
      Unchanged [.sp, .pc] s t) ∧
    (s.sp.val = 0 → exec .ret s = .next { s with status := .faulted (.stackUnderflow s.pc 0x00EE#16) })

/-- R103 (D8): CALL pushes `pc + 2` and jumps, and overflows with 16 calls active. -/
def Obligations.CallPushesOrOverflows : Prop :=
  ∀ (nnn : Addr) (s : State),
    (s.sp.val ≠ 16 → ∃ t, exec (.call nnn) s = .next t ∧ t.stack[s.sp.val]? = some (s.pc + 2) ∧
      (∀ j : Nat, j ≠ s.sp.val → t.stack[j]? = s.stack[j]?) ∧ t.sp.val = s.sp.val + 1 ∧ t.pc.toNat = nnn.toNat ∧
      Unchanged [.sp, .stack, .pc] s t) ∧
    (s.sp.val = 16 →
      exec (.call nnn) s = .next { s with status := .faulted (.stackOverflow s.pc (formatA 0x2#4 nnn)) })

/-- R101, R103: a RET with the stack a CALL left goes to the instruction after the CALL, and restores SP. -/
def Obligations.RetAfterCallReturnsPastTheCall : Prop :=
  ∀ (nnn : Addr) (s t u : State), s.sp.val ≠ 16 → exec (.call nnn) s = .next t → u.sp = t.sp → u.stack = t.stack →
    ∃ w, exec .ret u = .next w ∧ w.pc = s.pc + 2 ∧ w.sp = s.sp

/-- R102, R104: the jumps write pc, without wrapping, and nothing else; no target faults at the jump. -/
def Obligations.JumpsSetPcOnly : Prop :=
  ∀ (nnn : Addr) (s : State),
    (∃ t, exec (.jp nnn) s = .next t ∧ t.pc.toNat = nnn.toNat ∧ Unchanged [.pc] s t) ∧
    (∃ t, exec (.jpV0 nnn) s = .next t ∧ t.pc.toNat = nnn.toNat + (s.getV 0).toNat ∧ Unchanged [.pc] s t)

/-- R106: a running step at a jump to its own address changes nothing but the timers. -/
def Obligations.SelfJumpChangesOnlyTimers : Prop :=
  ∀ (s : State) (nnn : Addr), s.status = .running → Fetchable s → wordAtPc s = formatA 0x1#4 nnn →
    s.pc.toNat = nnn.toNat →
    ∃ t, step s = .next t ∧ t = { s with dt := t.dt, st := t.st } ∧
      (s.cfg.timerPolicy = .externalTick → t = s)

/-! ## Skips (41_skips.md) -/

/-- R120, R121. -/
def Obligations.ImmediateSkips : Prop :=
  ∀ (x : Reg) (nn : Byte) (s : State),
    decodeWord s.cfg.hasSubn (formatXK 0x3#4 x nn) = some (.seImm x nn) ∧
    decodeWord s.cfg.hasSubn (formatXK 0x4#4 x nn) = some (.sneImm x nn) ∧
    (∃ t, exec (.seImm x nn) s = .next t ∧ Unchanged [.pc] s t ∧
      (s.getV x = nn → t.pc = s.pc + 4) ∧ (s.getV x ≠ nn → t.pc = s.pc + 2)) ∧
    (∃ t, exec (.sneImm x nn) s = .next t ∧ Unchanged [.pc] s t ∧
      (s.getV x ≠ nn → t.pc = s.pc + 4) ∧ (s.getV x = nn → t.pc = s.pc + 2))

/-- R122, R123. -/
def Obligations.RegisterSkips : Prop :=
  ∀ (x y : Reg) (s : State),
    (∀ n : Nibble, decodeWord s.cfg.hasSubn (formatXY 0x5#4 x y n) = if n = 0 then some (.seReg x y) else none) ∧
    (∀ n : Nibble, decodeWord s.cfg.hasSubn (formatXY 0x9#4 x y n) = if n = 0 then some (.sneReg x y) else none) ∧
    (∃ t, exec (.seReg x y) s = .next t ∧ Unchanged [.pc] s t ∧
      (s.getV x = s.getV y → t.pc = s.pc + 4) ∧ (s.getV x ≠ s.getV y → t.pc = s.pc + 2)) ∧
    (∃ t, exec (.sneReg x y) s = .next t ∧ Unchanged [.pc] s t ∧
      (s.getV x ≠ s.getV y → t.pc = s.pc + 4) ∧ (s.getV x = s.getV y → t.pc = s.pc + 2))

/-! ## Register operations (42_register_ops.md) -/

/-- R140, R142. -/
def Obligations.LoadImmediateAndCopy : Prop :=
  ∀ (x y : Reg) (nn : Byte) (s : State),
    decodeWord s.cfg.hasSubn (formatXK 0x6#4 x nn) = some (.ldImm x nn) ∧
    decodeWord s.cfg.hasSubn (formatXY 0x8#4 x y 0x0#4) = some (.ldReg x y) ∧
    (∃ t, exec (.ldImm x nn) s = .next t ∧ t.getV x = nn ∧ RegsUnchanged [x] s t ∧ t.pc = s.pc + 2 ∧
      Unchanged [.regs, .pc] s t) ∧
    (∃ t, exec (.ldReg x y) s = .next t ∧ t.getV x = s.getV y ∧ RegsUnchanged [x] s t ∧ t.pc = s.pc + 2 ∧
      Unchanged [.regs, .pc] s t)

/-- R141. -/
def Obligations.AddImmediateWrapsWithoutFlag : Prop :=
  ∀ (x : Reg) (nn : Byte) (s : State),
    decodeWord s.cfg.hasSubn (formatXK 0x7#4 x nn) = some (.addImm x nn) ∧
    ∃ t, exec (.addImm x nn) s = .next t ∧ (t.getV x).toNat = ((s.getV x).toNat + nn.toNat) % 256 ∧
      RegsUnchanged [x] s t ∧ t.pc = s.pc + 2 ∧ Unchanged [.regs, .pc] s t

/-- R143, R144, R145 (R146, D14: VF is not a flag here). -/
def Obligations.BitwiseOperations : Prop :=
  ∀ (x y : Reg) (s : State),
    (∃ t, exec (.orReg x y) s = .next t ∧
      (∀ k < 8, (t.getV x).getLsbD k = ((s.getV x).getLsbD k || (s.getV y).getLsbD k)) ∧
      RegsUnchanged [x] s t ∧ t.pc = s.pc + 2 ∧ Unchanged [.regs, .pc] s t) ∧
    (∃ t, exec (.andReg x y) s = .next t ∧
      (∀ k < 8, (t.getV x).getLsbD k = ((s.getV x).getLsbD k && (s.getV y).getLsbD k)) ∧
      RegsUnchanged [x] s t ∧ t.pc = s.pc + 2 ∧ Unchanged [.regs, .pc] s t) ∧
    (∃ t, exec (.xorReg x y) s = .next t ∧
      (∀ k < 8, (t.getV x).getLsbD k = ((s.getV x).getLsbD k != (s.getV y).getLsbD k)) ∧
      RegsUnchanged [x] s t ∧ t.pc = s.pc + 2 ∧ Unchanged [.regs, .pc] s t)

/-- R148, with R147 under either `FLAG_ORDER`. -/
def Obligations.AddSetsCarry : Prop :=
  ∀ (x y : Reg) (s : State),
    decodeWord s.cfg.hasSubn (formatXY 0x8#4 x y 0x4#4) = some (.addReg x y) ∧
    ∃ t, exec (.addReg x y) s = .next t ∧
      ResultAndFlag x (BitVec.ofNat 8 (((s.getV x).toNat + (s.getV y).toNat) % 256))
        (if 255 < (s.getV x).toNat + (s.getV y).toNat then 1 else 0) s t ∧
      t.pc = s.pc + 2 ∧ Unchanged [.regs, .pc] s t

/-- R149, with R147 under either `FLAG_ORDER`: the flag is 1 when there is no borrow. -/
def Obligations.SubSetsNotBorrow : Prop :=
  ∀ (x y : Reg) (s : State),
    decodeWord s.cfg.hasSubn (formatXY 0x8#4 x y 0x5#4) = some (.subReg x y) ∧
    ∃ t, exec (.subReg x y) s = .next t ∧
      ResultAndFlag x (BitVec.ofNat 8 (((s.getV x).toNat + 256 - (s.getV y).toNat) % 256))
        (if (s.getV y).toNat ≤ (s.getV x).toNat then 1 else 0) s t ∧
      t.pc = s.pc + 2 ∧ Unchanged [.regs, .pc] s t

/-- R151 (D11): the optional reverse subtract, and the fault of its word where `HAS_SUBN` is false. -/
def Obligations.SubnReversesAndIsOptional : Prop :=
  ∀ (x y : Reg) (s : State),
    (∃ t, exec (.subn x y) s = .next t ∧
      ResultAndFlag x (BitVec.ofNat 8 (((s.getV y).toNat + 256 - (s.getV x).toNat) % 256))
        (if (s.getV x).toNat ≤ (s.getV y).toNat then 1 else 0) s t ∧
      t.pc = s.pc + 2 ∧ Unchanged [.regs, .pc] s t) ∧
    (decodeWord s.cfg.hasSubn (formatXY 0x8#4 x y 0x7#4) = if s.cfg.hasSubn then some (.subn x y) else none) ∧
    (s.status = .running → Fetchable s → wordAtPc s = formatXY 0x8#4 x y 0x7#4 → s.cfg.hasSubn = false →
      step s = .next { s with status := .faulted (.unknownInstruction s.pc (wordAtPc s)) })

/-- R150, R152 (D12), with R147: the shifts of the register `SHIFT_SOURCE` names, and the bit shifted out. -/
def Obligations.ShiftsMoveOneBitIntoFlag : Prop :=
  ∀ (x y : Reg) (s : State) (a : Byte),
    (s.cfg.shiftSource = .vx ∧ a = s.getV x ∨ s.cfg.shiftSource = .vy ∧ a = s.getV y) →
    (∃ t, exec (.shr x y) s = .next t ∧
      ResultAndFlag x (BitVec.ofNat 8 (a.toNat / 2)) (BitVec.ofNat 8 (a.toNat % 2)) s t ∧
      t.pc = s.pc + 2 ∧ Unchanged [.regs, .pc] s t) ∧
    (∃ t, exec (.shl x y) s = .next t ∧
      ResultAndFlag x (BitVec.ofNat 8 (a.toNat * 2 % 256)) (BitVec.ofNat 8 (a.toNat / 128)) s t ∧
      t.pc = s.pc + 2 ∧ Unchanged [.regs, .pc] s t)

/-! ## Memory and index (43_memory_index.md) -/

/-- R170, R171, R172 (D7, D16): the three writes of I, none of which checks it. -/
def Obligations.IndexWrites : Prop :=
  ∀ (nnn : Addr) (x : Reg) (s : State),
    (∃ t, exec (.ldI nnn) s = .next t ∧ t.i.toNat = nnn.toNat ∧ t.pc = s.pc + 2 ∧ Unchanged [.index, .pc] s t) ∧
    (∃ t, exec (.addI x) s = .next t ∧ t.i.toNat = (s.i.toNat + (s.getV x).toNat) % 65536 ∧ t.pc = s.pc + 2 ∧
      Unchanged [.index, .pc] s t) ∧
    (∃ t, exec (.ldF x) s = .next t ∧ t.i.toNat = 5 * (s.getV x).toNat ∧ t.pc = s.pc + 2 ∧
      Unchanged [.index, .pc] s t)

/-- R174: the decimal digits go to I, I + 1, I + 2, hundreds first, or the range fault and nothing. The other fields of the
fault's record are FaultRecordNamesTheInstruction's. -/
def Obligations.BcdStoresDecimalDigits : Prop :=
  ∀ (x : Reg) (s : State),
    decodeWord s.cfg.hasSubn (formatX 0xF#4 x 0x33#8) = some (.ldB x) ∧
    (InMemory s.i 3 → ∃ t, exec (.ldB x) s = .next t ∧
      (t.mem.read s.i.toNat).toNat = (s.getV x).toNat / 100 ∧
      (t.mem.read (s.i.toNat + 1)).toNat = (s.getV x).toNat / 10 % 10 ∧
      (t.mem.read (s.i.toNat + 2)).toNat = (s.getV x).toNat % 10 ∧
      MemUnchangedOutside s.i.toNat 3 s t ∧ t.pc = s.pc + 2 ∧ Unchanged [.mem, .pc] s t) ∧
    (¬ InMemory s.i 3 → ∃ pc w, exec (.ldB x) s =
      .next { s with status := .faulted (.outOfBoundsAddress pc w (BitVec.ofNat 16 (max s.i.toNat memSize))) })

/-- R175: V0 to VX go to I and up, and I moves past them, or the range fault and nothing. The other fields of the fault's
record are FaultRecordNamesTheInstruction's. -/
def Obligations.BulkStoreWritesRegisters : Prop :=
  ∀ (x : Reg) (s : State),
    decodeWord s.cfg.hasSubn (formatX 0xF#4 x 0x55#8) = some (.storeRegs x) ∧
    (InMemory s.i (x.val + 1) → ∃ t, exec (.storeRegs x) s = .next t ∧
      (∀ k : Reg, k.val ≤ x.val → t.mem.read (s.i.toNat + k.val) = s.getV k) ∧
      MemUnchangedOutside s.i.toNat (x.val + 1) s t ∧ t.i.toNat = s.i.toNat + x.val + 1 ∧ t.pc = s.pc + 2 ∧
      Unchanged [.mem, .index, .pc] s t) ∧
    (¬ InMemory s.i (x.val + 1) → ∃ pc w, exec (.storeRegs x) s =
      .next { s with status := .faulted (.outOfBoundsAddress pc w (BitVec.ofNat 16 (max s.i.toNat memSize))) })

/-- R176 (D15): V0 to VX come from I and up, and I moves past the bytes, or the range fault and nothing. -/
def Obligations.BulkLoadReadsRegisters : Prop :=
  ∀ (x : Reg) (s : State),
    (InMemory s.i (x.val + 1) → ∃ t, exec (.loadRegs x) s = .next t ∧
      (∀ k : Reg, k.val ≤ x.val → t.getV k = s.mem.read (s.i.toNat + k.val)) ∧ (∀ k : Reg, x.val < k.val → t.getV k = s.getV k) ∧
      t.i.toNat = s.i.toNat + x.val + 1 ∧ t.pc = s.pc + 2 ∧ Unchanged [.regs, .index, .pc] s t) ∧
    (¬ InMemory s.i (x.val + 1) → exec (.loadRegs x) s =
      .next { s with status := .faulted (outOfBoundsAt s (some (formatX 0xF#4 x 0x65#8)) s.i) })

/-- R68 (D26): two registers stored where pc will be are the word the fetch there reads. -/
def Obligations.StoredBytesAreFetched : Prop :=
  ∀ (x k j : Reg) (s t u : State), InMemory s.i (x.val + 1) → exec (.storeRegs x) s = .next t → u.mem = t.mem →
    j.val = k.val + 1 → j.val ≤ x.val → u.pc.toNat = s.i.toNat + k.val → Fetchable u →
    fetch u = .ok (s.getV k ++ s.getV j)

/-! ## Timers (44_timers.md) -/

/-- R190, R191, R192: the values before the tick of the step. -/
def Obligations.TimerInstructions : Prop :=
  ∀ (x : Reg) (s : State),
    decodeWord s.cfg.hasSubn (formatX 0xF#4 x 0x07#8) = some (.ldFromDt x) ∧
    decodeWord s.cfg.hasSubn (formatX 0xF#4 x 0x15#8) = some (.ldDt x) ∧
    decodeWord s.cfg.hasSubn (formatX 0xF#4 x 0x18#8) = some (.ldSt x) ∧
    (∃ t, exec (.ldFromDt x) s = .next t ∧ t.getV x = s.dt ∧ RegsUnchanged [x] s t ∧ t.pc = s.pc + 2 ∧
      Unchanged [.regs, .pc] s t) ∧
    (∃ t, exec (.ldDt x) s = .next t ∧ t.dt = s.getV x ∧ t.pc = s.pc + 2 ∧ Unchanged [.dt, .pc] s t) ∧
    (∃ t, exec (.ldSt x) s = .next t ∧ t.st = s.getV x ∧ t.pc = s.pc + 2 ∧ Unchanged [.st, .pc] s t)

/-- R193, R196: after `n` ticks each timer has gone down by `n`, not below zero, and nothing else has changed. -/
def Obligations.TicksCountDownAndSaturate : Prop :=
  ∀ (n : Nat) (s : State),
    (State.timerTick^[n] s).dt.toNat = s.dt.toNat - n ∧ (State.timerTick^[n] s).st.toNat = s.st.toNat - n ∧
    Unchanged [.dt, .st] s (State.timerTick^[n] s)

/-- R31, R194, R195 (D18): under `external_tick` a step changes a timer only by FX15 or FX18. -/
def Obligations.ExternalTickStepKeepsTimers : Prop :=
  ∀ s t : State, s.cfg.timerPolicy = .externalTick → step s = .next t →
    (t.dt ≠ s.dt → ∃ x, decodeWord s.cfg.hasSubn (wordAtPc s) = some (.ldDt x) ∧ t.dt = s.getV x) ∧
    (t.st ≠ s.st → ∃ x, decodeWord s.cfg.hasSubn (wordAtPc s) = some (.ldSt x) ∧ t.st = s.getV x)

/-! ## Random (45_random.md) -/

/-- R201, R202 (R200, D21): the drawn byte, whatever it is, under the mask. -/
def Obligations.RandomByteIsMasked : Prop :=
  ∀ (x : Reg) (nn : Byte) (s : State),
    ∃ t, exec (.rnd x nn) s = .next t ∧ t.getV x = Config.drawByte s.draws &&& nn ∧ t.getV x &&& ~~~nn = 0 ∧
      RegsUnchanged [x] s t ∧ t.pc = s.pc + 2 ∧ t.draws = s.draws + 1 ∧ Unchanged [.regs, .pc, .draws] s t

/-! ## Draw (46_draw.md) -/

/-- R210, R211, R213, R214 (D17): every pixel is XORed with the sprite's bit over it, coordinates wrapping, and VF is 1
exactly when a set pixel met a set bit. -/
def Obligations.DrawXorsSprite : Prop :=
  ∀ (x y : Reg) (n : Nibble) (s : State), DrawRuns n s →
    ∃ t, exec (.drw x y n) s = .next t ∧
      (∀ r c, t.fb.pixel r c = true ↔
        ¬ (s.fb.pixel r c = true ↔ SpriteCovers s (s.getV x) (s.getV y) n.toNat r c)) ∧
      ((∃ r c, s.fb.pixel r c = true ∧ SpriteCovers s (s.getV x) (s.getV y) n.toNat r c) → t.getV 15 = 1) ∧
      (¬ (∃ r c, s.fb.pixel r c = true ∧ SpriteCovers s (s.getV x) (s.getV y) n.toNat r c) → t.getV 15 = 0) ∧
      RegsUnchanged [15] s t ∧ t.pc = s.pc + 2 ∧ Unchanged [.fb, .regs, .pc] s t

/-- R212: after a draw VF is 1 if at least one pixel went from 1 to 0, and 0 otherwise. -/
def Obligations.CollisionFlagIsAggregate : Prop :=
  ∀ (x y : Reg) (n : Nibble) (s : State), DrawRuns n s →
    ∃ t, exec (.drw x y n) s = .next t ∧
      ((∃ r c, s.fb.pixel r c = true ∧ t.fb.pixel r c = false) → t.getV 15 = 1) ∧
      ((∀ r c, s.fb.pixel r c = true → t.fb.pixel r c = true) → t.getV 15 = 0)

/-- R210, R216 (D28): where DXYN faults, and that it then changes nothing else. -/
def Obligations.DrawFaults : Prop :=
  ∀ (x y : Reg) (n : Nibble) (s : State),
    (n = 0 → s.cfg.drawH0 = .fault → exec (.drw x y n) s =
      .next { s with status := .faulted (.unknownInstruction s.pc (formatXY 0xD#4 x y n)) }) ∧
    (n ≠ 0 → ¬ InMemory s.i n.toNat → exec (.drw x y n) s =
      .next { s with status := .faulted (outOfBoundsAt s (some (formatXY 0xD#4 x y n)) s.i) })

/-- R217, its quoted sentence (log entry 20 on the sentence after it): the same sprite drawn again at the same place
restores the framebuffer, and collides exactly when the first draw set a pixel. -/
def Obligations.DrawingTwiceRestores : Prop :=
  ∀ (x y : Reg) (n : Nibble) (s t u : State), DrawRuns n s → exec (.drw x y n) s = .next t →
    u.fb = t.fb → u.i = s.i → u.mem = s.mem → u.cfg = s.cfg → u.getV x = s.getV x → u.getV y = s.getV y →
    ∃ w, exec (.drw x y n) u = .next w ∧ w.fb = s.fb ∧
      ((∃ r c, s.fb.pixel r c = false ∧ t.fb.pixel r c = true) → w.getV 15 = 1) ∧
      ((∀ r c, t.fb.pixel r c = true → s.fb.pixel r c = true) → w.getV 15 = 0)

/-! ## Key input (47_key_input.md) -/

/-- R230, R231, R232 (D31): the key skips read the key the register names, and fault for a value above 0xF. -/
def Obligations.KeySkips : Prop :=
  ∀ (x k : Reg) (s : State),
    ((s.getV x).toNat = k.val →
      (∃ t, exec (.skp x) s = .next t ∧ Unchanged [.pc] s t ∧
        (s.keys.getLsbD k.val = true → t.pc = s.pc + 4) ∧ (s.keys.getLsbD k.val = false → t.pc = s.pc + 2)) ∧
      (∃ t, exec (.sknp x) s = .next t ∧ Unchanged [.pc] s t ∧
        (s.keys.getLsbD k.val = false → t.pc = s.pc + 4) ∧ (s.keys.getLsbD k.val = true → t.pc = s.pc + 2))) ∧
    (15 < (s.getV x).toNat →
      exec (.skp x) s =
        .next { s with status := .faulted (.invalidKeyIndex s.pc (formatX 0xE#4 x 0x9E#8) (s.getV x)) } ∧
      exec (.sknp x) s =
        .next { s with status := .faulted (.invalidKeyIndex s.pc (formatX 0xE#4 x 0xA1#8) (s.getV x)) })

/-- R233, R234, R236 (D19, D20): FX0A suspends under `edge`, and under `level` with no key pressed; under `level` with a key
pressed it stores a pressed key at once. -/
def Obligations.WaitForKeyInstruction : Prop :=
  ∀ (x : Reg) (s : State),
    (s.cfg.keyWaitTrigger = .edge → exec (.ldKey x) s = .next { s with status := .awaitingKey x s.keys }) ∧
    (s.cfg.keyWaitTrigger = .level → s.keys = 0 → exec (.ldKey x) s = .next { s with status := .awaitingKey x 0 }) ∧
    (s.cfg.keyWaitTrigger = .level → s.keys ≠ 0 → ∃ t, exec (.ldKey x) s = .next t ∧
      (∃ k : Reg, s.keys.getLsbD k.val = true ∧ (t.getV x).toNat = k.val) ∧ RegsUnchanged [x] s t ∧
      t.pc = s.pc + 2 ∧ t.draws = s.draws + 1 ∧ Unchanged [.regs, .pc, .draws] s t)

/-- R235, R236 (D18, D19, D20): a step of the wait changes at most the snapshot while no key is newly pressed, and
otherwise stores a newly pressed key, resumes, and ticks under `per_step`. That a capture takes one draw is the model's own
counting (log entry 7). -/
def Obligations.WaitStepSuspendsOrResumes : Prop :=
  ∀ (x : Reg) (snap : KeyVector) (s : State), s.status = .awaitingKey x snap →
    ((∀ k : Reg, s.keys.getLsbD k.val = true → snap.getLsbD k.val = true) →
      (s.cfg.keyWaitTrigger = .edge → step s = .next { s with status := .awaitingKey x s.keys }) ∧
      (s.cfg.keyWaitTrigger = .level → step s = .next s)) ∧
    (∀ k : Reg, s.keys.getLsbD k.val = true → snap.getLsbD k.val = false →
      ∃ t, step s = .next t ∧ t.status = .running ∧
        (∃ c : Reg, s.keys.getLsbD c.val = true ∧ snap.getLsbD c.val = false ∧ (t.getV x).toNat = c.val) ∧
        RegsUnchanged [x] s t ∧ t.pc = s.pc + 2 ∧ t.draws = s.draws + 1 ∧
        (s.cfg.timerPolicy = .perStep → t.dt.toNat = s.dt.toNat - 1 ∧ t.st.toNat = s.st.toNat - 1) ∧
        (s.cfg.timerPolicy = .externalTick → t.dt = s.dt ∧ t.st = s.st) ∧
        Unchanged [.regs, .pc, .draws, .status, .dt, .st] s t)

/-- R236: the choice among the newly pressed keys leaves none out: each is the one some draw selects. -/
def Obligations.EveryNewKeyCanBeChosen : Prop :=
  ∀ (keys snap : KeyVector) (k c : Reg) (ks : List Reg), newKeys keys snap = k :: ks →
    (keys.getLsbD c.val = true ∧ snap.getLsbD c.val = false ↔ ∃ n, chooseKey n k ks = c)

/-- R238, U14: with no new press a wait never ends: any number of steps leaves all but the snapshot. -/
def Obligations.WaitWithoutPressNeverEnds : Prop :=
  ∀ (n : Nat) (x : Reg) (snap : KeyVector) (s : State), s.status = .awaitingKey x snap →
    (∀ k : Reg, s.keys.getLsbD k.val = true → snap.getLsbD k.val = true) →
    ∃ snap', runOps s (List.replicate n .step) = { s with status := .awaitingKey x snap' }

/-! ## Reset, load and the host's operations (10_state.md, 20_memory.md, 70_reset_and_hazards.md) -/

/-- R42, R400, R401, R403 (D3, D23): what Reset leaves in every field. -/
def Obligations.ResetLeavesResetValues : Prop :=
  ∀ s : State,
    (∀ r, (resetMachine s).getV r = 0) ∧ (resetMachine s).i = 0 ∧ (resetMachine s).pc = 0x200#16 ∧
    (resetMachine s).sp.val = 0 ∧ (resetMachine s).dt = 0 ∧ (resetMachine s).st = 0 ∧
    (∀ y x, (resetMachine s).fb.pixel y x = false) ∧ (resetMachine s).keys = 0 ∧
    (resetMachine s).status = .running ∧
    (∀ a (_ : a < 80), (resetMachine s).mem.read a = s.cfg.font[a]) ∧
    (∀ a, 80 ≤ a → (resetMachine s).mem.read a = s.mem.read a) ∧
    Unchanged [.regs, .index, .pc, .sp, .dt, .st, .fb, .keys, .status, .mem] s (resetMachine s)

/-- R402: two resets in a row give the state of one, from any state whose memory has its canonical form. -/
def Obligations.ResetIsIdempotent : Prop :=
  ∀ s : State, s.mem.wf → resetMachine (resetMachine s) = resetMachine s

/-- R43, R405 (D3): the boot with the default parameters is the state right after reset. -/
def Obligations.BootIsReset : Prop := boot defaultParams = State.reset

/-- R64: the bounds check of Load, and the copy of an image that passes it. -/
def Obligations.LoadChecksAndCopies : Prop :=
  ∀ (image : List Byte) (s : State),
    (3584 < image.length → load image s = .imageTooLarge) ∧
    (image.length ≤ 3584 → ∃ t, load image s = .ok t ∧
      (∀ k (_ : k < image.length), t.mem.read (0x200 + k) = image[k]) ∧
      MemUnchangedOutside 0x200 image.length s t ∧ Unchanged [.mem] s t)

/-- R405: Reset and Load may be swapped, from any state whose memory has its canonical form. -/
def Obligations.ResetAndLoadCommute : Prop :=
  ∀ (image : List Byte) (s t : State), s.mem.wf → load image s = .ok t →
    load image (resetMachine s) = .ok (resetMachine t)

/-- R35, R44, R45, R193, R194 (D1, D18): SetKeys writes the key vector alone; Tick60 is one tick under `external_tick` and
does not exist under `per_step`. -/
def Obligations.SetKeysAndTickSixty : Prop :=
  ∀ (k : KeyVector) (s : State),
    ((setKeys k s).keys = k ∧ Unchanged [.keys] s (setKeys k s)) ∧
    (s.cfg.timerPolicy = .perStep → tick60 s = none) ∧
    (s.cfg.timerPolicy = .externalTick → ∃ t, tick60 s = some t ∧ t.dt.toNat = s.dt.toNat - 1 ∧
      t.st.toNat = s.st.toNat - 1 ∧ Unchanged [.dt, .st] s t)

/-! ## Whole-machine statements -/

/-- The invariant (10_state.md R23, R26, 47_key_input.md R234, R235, 60_exceptions.md R301): every step keeps it. -/
def Obligations.StepKeepsInvariant : Prop := ∀ s t : State, Invariant s → step s = .next t → Invariant t

/-- The invariant holds right after reset. -/
def Obligations.ResetHasInvariant : Prop := Invariant State.reset

/-- Every operation of the host (10_state.md R44) keeps the invariant. -/
def Obligations.HostOperationsKeepInvariant : Prop := ∀ (op : BlockOp) (s : State), Invariant s → Invariant (op.apply s)

/-- Every state any sequence of the host's operations reaches from a boot, under any parameters, has the invariant. -/
def Obligations.ReachableStatesHaveInvariant : Prop := ∀ s : State, Reachable s → Invariant s

/-- R31, R32: the sound timer has no effect inside the block: two states that differ in it alone step alike. -/
def Obligations.SoundTimerHasNoEffect : Prop :=
  ∀ s s' : State, DifferInSound s s' → OutcomesRelate DifferInSound (step s) (step s')

/-- R30: the slots at and above SP cannot be observed: two states that differ there alone step alike. -/
def Obligations.DeadStackSlotsAreUnobservable : Prop :=
  ∀ s s' : State, DifferInDeadSlots s s' → OutcomesRelate DifferInDeadSlots (step s) (step s')
end

