-- ==== Sys2Proof/Laws/Memory.lean ====
section
/-!
SUPPORT. The laws of memory: a read after a write, the bytes of a block, and the canonical form. The read laws need no
canonical form.
-/

namespace Sys2Proof.Machine

/-! ## Reading -/

theorem Memory.read_erase (m : Memory) (a b : Nat) :
    (m.erase a).read b = if b = a then Memory.unlisted a else m.read b := by
  induction m with
  | nil => unfold Memory.erase; split <;> simp_all [Memory.read]
  | cons c rest ih =>
    obtain ⟨k, w⟩ := c
    unfold Memory.erase at ih ⊢
    by_cases hk : k = a
    · subst hk
      simp only [List.filter_cons, bne_self_eq_false, Bool.false_eq_true, if_false, ih, Memory.read]
      by_cases hb : b = k
      · simp [hb]
      · simp [hb, Ne.symm hb]
    · have hka : (k != a) = true := by simpa using hk
      simp only [List.filter_cons, hka, if_true, Memory.read]
      by_cases hb : k = b
      · subst hb; simp [hk]
      · simp [hb, ih]

theorem Memory.read_insert_self {m : Memory} {a : Nat} (v : Byte) (h : ∀ c ∈ m, c.1 ≠ a) :
    (Memory.insert a v m).read a = v := by
  induction m with
  | nil => simp [Memory.insert, Memory.read]
  | cons c rest ih =>
    unfold Memory.insert
    split
    · simp [Memory.read]
    · have hc := h c (List.mem_cons_self ..)
      simp [Memory.read, hc, ih fun d hd => h d (List.mem_cons_of_mem _ hd)]

theorem Memory.read_insert_ne {a b : Nat} (h : b ≠ a) (v : Byte) (m : Memory) :
    (Memory.insert a v m).read b = m.read b := by
  induction m with
  | nil => simp [Memory.insert, Memory.read, Ne.symm h]
  | cons c rest ih =>
    unfold Memory.insert
    split
    · simp [Memory.read, Ne.symm h]
    · simp only [Memory.read, ih]

theorem Memory.fst_ne_of_mem_erase {m : Memory} {a : Nat} {c : Host.Cell} (h : c ∈ m.erase a) : c.1 ≠ a := by
  unfold Memory.erase at h
  simpa using (List.mem_filter.mp h).2

/-- A byte reads as what was last written to it, and a write leaves every other byte alone. -/
theorem Memory.read_write (m : Memory) (a b : Nat) (v : Byte) :
    (m.write a v).read b = if b = a then v else m.read b := by
  unfold Memory.write
  by_cases hb : b = a
  · subst hb
    split
    · simp_all [Memory.read_erase]
    · rw [Memory.read_insert_self v fun c hc => Memory.fst_ne_of_mem_erase hc, if_pos rfl]
  · split
    · simp [Memory.read_erase, hb]
    · rw [Memory.read_insert_ne hb, Memory.read_erase, if_neg hb]

/-- A block write: byte `b` is the block's byte there, if it lies in the block, else what it was. -/
theorem Memory.read_writeBytes (m : Memory) (a b : Nat) (bs : List Byte) :
    (m.writeBytes a bs).read b = if h : a ≤ b ∧ b - a < bs.length then bs[b - a]'h.2 else m.read b := by
  induction bs generalizing m a with
  | nil => simp [Memory.writeBytes]
  | cons v bs ih =>
    rw [Memory.writeBytes, ih]
    by_cases h1 : a + 1 ≤ b ∧ b - (a + 1) < bs.length
    · have h2 : a ≤ b ∧ b - a < (v :: bs).length := by simp only [List.length_cons]; omega
      have h3 : b - a = b - (a + 1) + 1 := by omega
      rw [dif_pos h1, dif_pos h2]
      simp only [h3, List.getElem_cons_succ]
    · rw [dif_neg h1, Memory.read_write]
      by_cases hb : b = a
      · subst hb; simp
      · have h2 : ¬ (a ≤ b ∧ b - a < (v :: bs).length) := by simp only [List.length_cons]; omega
        rw [if_neg hb, dif_neg h2]

theorem Memory.read_writeBytes_of_lt {m : Memory} {a k : Nat} {bs : List Byte} (h : k < bs.length) :
    (m.writeBytes a bs).read (a + k) = bs[k] := by
  have h' : a ≤ a + k ∧ a + k - a < bs.length := by omega
  rw [Memory.read_writeBytes, dif_pos h']
  simp

theorem Memory.read_writeBytes_outside {m : Memory} {a b : Nat} {bs : List Byte} (h : b < a ∨ a + bs.length ≤ b) :
    (m.writeBytes a bs).read b = m.read b := by
  rw [Memory.read_writeBytes, dif_neg (by omega)]

@[simp] theorem Memory.length_readBytes (m : Memory) (a n : Nat) : (m.readBytes a n).length = n := by
  induction n generalizing a with
  | zero => rfl
  | succ n ih => simp [Memory.readBytes, ih]

@[simp] theorem Memory.getElem_readBytes (m : Memory) (a n k : Nat) (h : k < (m.readBytes a n).length) :
    (m.readBytes a n)[k] = m.read (a + k) := by
  induction n generalizing a k with
  | zero => simp at h
  | succ n ih =>
    cases k with
    | zero => rfl
    | succ k => simp only [Memory.readBytes, List.getElem_cons_succ, ih]; congr 1; omega

/-! ## The canonical form -/

theorem Memory.erase_wf {m : Memory} (h : m.wf) (a : Nat) : (m.erase a).wf :=
  ⟨h.1.filter _, fun c hc => h.2 c (List.mem_of_mem_filter hc)⟩

theorem Memory.mem_insert {m : Memory} {a : Nat} {v : Byte} {c : Host.Cell} (h : c ∈ Memory.insert a v m) :
    c = (a, v) ∨ c ∈ m := by
  induction m with
  | nil => simpa [Memory.insert] using h
  | cons d rest ih =>
    unfold Memory.insert at h
    split at h
    · simpa using h
    · rcases List.mem_cons.mp h with rfl | h
      · exact .inr (List.mem_cons_self ..)
      · exact (ih h).imp_right (List.mem_cons_of_mem _)

theorem Memory.insert_wf {m : Memory} {a : Nat} {v : Byte} (h : m.wf) (hm : ∀ c ∈ m, c.1 ≠ a) (ha : a < memSize)
    (hv : v ≠ Memory.unlisted a) : (Memory.insert a v m).wf := by
  refine ⟨?_, fun c hc => ?_⟩
  · obtain ⟨hp, -⟩ := h
    induction m with
    | nil => simp [Memory.insert]
    | cons d rest ih =>
      obtain ⟨hd, hrest⟩ := List.pairwise_cons.mp hp
      have hda := hm d (List.mem_cons_self ..)
      unfold Memory.insert
      split
      · rename_i hlt
        refine List.pairwise_cons.mpr ⟨fun c hc => ?_, hp⟩
        rcases List.mem_cons.mp hc with rfl | hc
        · exact hlt
        · exact Nat.lt_trans hlt (hd c hc)
      · rename_i hlt
        refine List.pairwise_cons.mpr ⟨fun c hc => ?_, ih (fun c hc => hm c (List.mem_cons_of_mem _ hc)) hrest⟩
        rcases Memory.mem_insert hc with rfl | hc
        · show d.1 < a; omega
        · exact hd c hc
  · rcases Memory.mem_insert hc with rfl | hc
    · exact ⟨ha, hv⟩
    · exact h.2 c hc

/-- A write inside memory keeps the canonical form. -/
theorem Memory.write_wf {m : Memory} (h : m.wf) {a : Nat} (ha : a < memSize) (v : Byte) : (m.write a v).wf := by
  unfold Memory.write
  split
  · exact Memory.erase_wf h a
  · exact Memory.insert_wf (Memory.erase_wf h a) (fun c hc => Memory.fst_ne_of_mem_erase hc) ha ‹_›

/-- A block write inside memory keeps the canonical form. -/
theorem Memory.writeBytes_wf {m : Memory} (h : m.wf) {a : Nat} {bs : List Byte} (ha : a + bs.length ≤ memSize) :
    (m.writeBytes a bs).wf := by
  induction bs generalizing m a with
  | nil => exact h
  | cons v bs ih =>
    simp only [List.length_cons] at ha
    exact ih (Memory.write_wf h (by omega) v) (by omega)

theorem reset_memory_wf : State.reset.mem.wf := by simp [State.reset, Memory.wf]

theorem zeroMemory_wf : zeroMemory.wf :=
  Memory.writeBytes_wf (by simp [Memory.wf]) (by simp [memSize])

@[simp] theorem created_mem (params : Params) : (State.created params).mem = zeroMemory := by simp only [State.created]

theorem created_memory_wf (params : Params) : (State.created params).mem.wf := by
  rw [created_mem]
  exact zeroMemory_wf

theorem Memory.read_eq_unlisted {m : Memory} {a : Nat} (h : ∀ c ∈ m, c.1 ≠ a) : m.read a = Memory.unlisted a := by
  induction m with
  | nil => rfl
  | cons c rest ih =>
    simp [Memory.read, h c (List.mem_cons_self ..), ih fun d hd => h d (List.mem_cons_of_mem _ hd)]

/-- Two memories in canonical form that read alike everywhere are the same list. -/
theorem Memory.ext_of_wf {m m' : Memory} (h : m.wf) (h' : m'.wf) (hr : ∀ a, m.read a = m'.read a) : m = m' := by
  induction m generalizing m' with
  | nil =>
    cases m' with
    | nil => rfl
    | cons c' rest' =>
      exact absurd (by simpa [Memory.read] using (hr c'.1).symm) (h'.2 c' (List.mem_cons_self ..)).2
  | cons c rest ih =>
    cases m' with
    | nil => exact absurd (by simpa [Memory.read] using hr c.1) (h.2 c (List.mem_cons_self ..)).2
    | cons c' rest' =>
      obtain ⟨hc, hrest⟩ := List.pairwise_cons.mp h.1
      obtain ⟨hc', hrest'⟩ := List.pairwise_cons.mp h'.1
      have hk : c.1 = c'.1 := by
        rcases Nat.lt_trichotomy c.1 c'.1 with hlt | heq | hgt
        · have hu : Memory.read (c' :: rest') c.1 = Memory.unlisted c.1 := Memory.read_eq_unlisted fun d hd => by
            rcases List.mem_cons.mp hd with rfl | hd
            · omega
            · have := hc' d hd; omega
          exact absurd (by rw [← hu, ← hr]; simp [Memory.read]) (h.2 c (List.mem_cons_self ..)).2
        · exact heq
        · have hu : Memory.read (c :: rest) c'.1 = Memory.unlisted c'.1 := Memory.read_eq_unlisted fun d hd => by
            rcases List.mem_cons.mp hd with rfl | hd
            · omega
            · have := hc d hd; omega
          exact absurd (by rw [← hu, hr]; simp [Memory.read]) (h'.2 c' (List.mem_cons_self ..)).2
      have hv : c.2 = c'.2 := by simpa [Memory.read, hk] using hr c.1
      have hcc : c = c' := Prod.ext hk hv
      subst hcc
      refine congrArg (c :: ·) (ih ⟨hrest, fun d hd => h.2 d (List.mem_cons_of_mem _ hd)⟩
        ⟨hrest', fun d hd => h'.2 d (List.mem_cons_of_mem _ hd)⟩ fun a => ?_)
      by_cases ha : c.1 = a
      · subst ha
        rw [Memory.read_eq_unlisted fun d hd => by have := hc d hd; omega,
          Memory.read_eq_unlisted fun d hd => by have := hc' d hd; omega]
      · simpa [Memory.read, ha] using hr a

end Sys2Proof.Machine
end

