-- ==== Sys2Proof/Laws/State.lean ====
section
/-!
SUPPORT. One lemma per field per update of the state, so that no proof unfolds a record update.
-/

namespace Sys2Proof.Machine

/-! ## Register writes -/

@[simp] theorem State.setV_v (s : State) (r : Reg) (b : Byte) : (s.setV r b).v = s.v.set r.val b := rfl
@[simp] theorem State.setV_i (s : State) (r : Reg) (b : Byte) : (s.setV r b).i = s.i := rfl
@[simp] theorem State.setV_pc (s : State) (r : Reg) (b : Byte) : (s.setV r b).pc = s.pc := rfl
@[simp] theorem State.setV_sp (s : State) (r : Reg) (b : Byte) : (s.setV r b).sp = s.sp := rfl
@[simp] theorem State.setV_stack (s : State) (r : Reg) (b : Byte) : (s.setV r b).stack = s.stack := rfl
@[simp] theorem State.setV_dt (s : State) (r : Reg) (b : Byte) : (s.setV r b).dt = s.dt := rfl
@[simp] theorem State.setV_st (s : State) (r : Reg) (b : Byte) : (s.setV r b).st = s.st := rfl
@[simp] theorem State.setV_fb (s : State) (r : Reg) (b : Byte) : (s.setV r b).fb = s.fb := rfl
@[simp] theorem State.setV_keys (s : State) (r : Reg) (b : Byte) : (s.setV r b).keys = s.keys := rfl
@[simp] theorem State.setV_mem (s : State) (r : Reg) (b : Byte) : (s.setV r b).mem = s.mem := rfl
@[simp] theorem State.setV_status (s : State) (r : Reg) (b : Byte) : (s.setV r b).status = s.status := rfl
@[simp] theorem State.setV_cfg (s : State) (r : Reg) (b : Byte) : (s.setV r b).cfg = s.cfg := rfl
@[simp] theorem State.setV_draws (s : State) (r : Reg) (b : Byte) : (s.setV r b).draws = s.draws := rfl

theorem State.getV_setV (s : State) (r q : Reg) (b : Byte) :
    (s.setV r b).getV q = if q = r then b else s.getV q := by
  simp only [State.getV, State.setV, Vector.getElem_set, Fin.ext_iff, eq_comm]

@[simp] theorem State.getV_setV_self (s : State) (r : Reg) (b : Byte) : (s.setV r b).getV r = b := by
  simp [State.getV_setV]

theorem State.getV_setV_ne {q r : Reg} (h : q ≠ r) (s : State) (b : Byte) : (s.setV r b).getV q = s.getV q := by
  simp [State.getV_setV, h]

/-! ## The advance of pc -/

@[simp] theorem State.advance_v (s : State) : (s.advance).v = s.v := rfl
@[simp] theorem State.advance_i (s : State) : (s.advance).i = s.i := rfl
@[simp] theorem State.advance_pc (s : State) : (s.advance).pc = s.pc + 2 := rfl
@[simp] theorem State.advance_sp (s : State) : (s.advance).sp = s.sp := rfl
@[simp] theorem State.advance_stack (s : State) : (s.advance).stack = s.stack := rfl
@[simp] theorem State.advance_dt (s : State) : (s.advance).dt = s.dt := rfl
@[simp] theorem State.advance_st (s : State) : (s.advance).st = s.st := rfl
@[simp] theorem State.advance_fb (s : State) : (s.advance).fb = s.fb := rfl
@[simp] theorem State.advance_keys (s : State) : (s.advance).keys = s.keys := rfl
@[simp] theorem State.advance_mem (s : State) : (s.advance).mem = s.mem := rfl
@[simp] theorem State.advance_status (s : State) : (s.advance).status = s.status := rfl
@[simp] theorem State.advance_cfg (s : State) : (s.advance).cfg = s.cfg := rfl
@[simp] theorem State.advance_draws (s : State) : (s.advance).draws = s.draws := rfl

@[simp] theorem State.advance_getV (s : State) (r : Reg) : s.advance.getV r = s.getV r := rfl

@[simp] theorem State.skipIf_v (s : State) (c : Bool) : (s.skipIf c).v = s.v := rfl
@[simp] theorem State.skipIf_i (s : State) (c : Bool) : (s.skipIf c).i = s.i := rfl
@[simp] theorem State.skipIf_pc (s : State) (c : Bool) : (s.skipIf c).pc = if c then s.pc + 4 else s.pc + 2 := rfl
@[simp] theorem State.skipIf_sp (s : State) (c : Bool) : (s.skipIf c).sp = s.sp := rfl
@[simp] theorem State.skipIf_stack (s : State) (c : Bool) : (s.skipIf c).stack = s.stack := rfl
@[simp] theorem State.skipIf_dt (s : State) (c : Bool) : (s.skipIf c).dt = s.dt := rfl
@[simp] theorem State.skipIf_st (s : State) (c : Bool) : (s.skipIf c).st = s.st := rfl
@[simp] theorem State.skipIf_fb (s : State) (c : Bool) : (s.skipIf c).fb = s.fb := rfl
@[simp] theorem State.skipIf_keys (s : State) (c : Bool) : (s.skipIf c).keys = s.keys := rfl
@[simp] theorem State.skipIf_mem (s : State) (c : Bool) : (s.skipIf c).mem = s.mem := rfl
@[simp] theorem State.skipIf_status (s : State) (c : Bool) : (s.skipIf c).status = s.status := rfl
@[simp] theorem State.skipIf_cfg (s : State) (c : Bool) : (s.skipIf c).cfg = s.cfg := rfl
@[simp] theorem State.skipIf_draws (s : State) (c : Bool) : (s.skipIf c).draws = s.draws := rfl

@[simp] theorem State.skipIf_getV (s : State) (c : Bool) (r : Reg) : (s.skipIf c).getV r = s.getV r := rfl

/-! ## Faults -/

@[simp] theorem State.takeFault_v (f : Fault) (s : State) : (s.takeFault f).v = s.v := rfl
@[simp] theorem State.takeFault_i (f : Fault) (s : State) : (s.takeFault f).i = s.i := rfl
@[simp] theorem State.takeFault_pc (f : Fault) (s : State) : (s.takeFault f).pc = s.pc := rfl
@[simp] theorem State.takeFault_sp (f : Fault) (s : State) : (s.takeFault f).sp = s.sp := rfl
@[simp] theorem State.takeFault_stack (f : Fault) (s : State) : (s.takeFault f).stack = s.stack := rfl
@[simp] theorem State.takeFault_dt (f : Fault) (s : State) : (s.takeFault f).dt = s.dt := rfl
@[simp] theorem State.takeFault_st (f : Fault) (s : State) : (s.takeFault f).st = s.st := rfl
@[simp] theorem State.takeFault_fb (f : Fault) (s : State) : (s.takeFault f).fb = s.fb := rfl
@[simp] theorem State.takeFault_keys (f : Fault) (s : State) : (s.takeFault f).keys = s.keys := rfl
@[simp] theorem State.takeFault_mem (f : Fault) (s : State) : (s.takeFault f).mem = s.mem := rfl
@[simp] theorem State.takeFault_status (f : Fault) (s : State) : (s.takeFault f).status = .faulted f := rfl
@[simp] theorem State.takeFault_cfg (f : Fault) (s : State) : (s.takeFault f).cfg = s.cfg := rfl
@[simp] theorem State.takeFault_draws (f : Fault) (s : State) : (s.takeFault f).draws = s.draws := rfl

@[simp] theorem State.takeFault_getV (f : Fault) (s : State) (r : Reg) : (s.takeFault f).getV r = s.getV r := rfl

/-! ## The tick -/

@[simp] theorem State.timerTick_v (s : State) : (s.timerTick).v = s.v := rfl
@[simp] theorem State.timerTick_i (s : State) : (s.timerTick).i = s.i := rfl
@[simp] theorem State.timerTick_pc (s : State) : (s.timerTick).pc = s.pc := rfl
@[simp] theorem State.timerTick_sp (s : State) : (s.timerTick).sp = s.sp := rfl
@[simp] theorem State.timerTick_stack (s : State) : (s.timerTick).stack = s.stack := rfl
@[simp] theorem State.timerTick_dt (s : State) : (s.timerTick).dt = countdown s.dt := rfl
@[simp] theorem State.timerTick_st (s : State) : (s.timerTick).st = countdown s.st := rfl
@[simp] theorem State.timerTick_fb (s : State) : (s.timerTick).fb = s.fb := rfl
@[simp] theorem State.timerTick_keys (s : State) : (s.timerTick).keys = s.keys := rfl
@[simp] theorem State.timerTick_mem (s : State) : (s.timerTick).mem = s.mem := rfl
@[simp] theorem State.timerTick_status (s : State) : (s.timerTick).status = s.status := rfl
@[simp] theorem State.timerTick_cfg (s : State) : (s.timerTick).cfg = s.cfg := rfl
@[simp] theorem State.timerTick_draws (s : State) : (s.timerTick).draws = s.draws := rfl

@[simp] theorem State.timerTick_getV (s : State) (r : Reg) : s.timerTick.getV r = s.getV r := rfl

@[simp] theorem State.tickPerStep_v (s : State) : s.tickPerStep.v = s.v := by
  unfold State.tickPerStep; cases s.cfg.timerPolicy <;> rfl
@[simp] theorem State.tickPerStep_i (s : State) : s.tickPerStep.i = s.i := by
  unfold State.tickPerStep; cases s.cfg.timerPolicy <;> rfl
@[simp] theorem State.tickPerStep_pc (s : State) : s.tickPerStep.pc = s.pc := by
  unfold State.tickPerStep; cases s.cfg.timerPolicy <;> rfl
@[simp] theorem State.tickPerStep_sp (s : State) : s.tickPerStep.sp = s.sp := by
  unfold State.tickPerStep; cases s.cfg.timerPolicy <;> rfl
@[simp] theorem State.tickPerStep_stack (s : State) : s.tickPerStep.stack = s.stack := by
  unfold State.tickPerStep; cases s.cfg.timerPolicy <;> rfl
theorem State.tickPerStep_dt (s : State) :
    s.tickPerStep.dt = if s.cfg.timerPolicy = .perStep then countdown s.dt else s.dt := by
  unfold State.tickPerStep; cases s.cfg.timerPolicy <;> simp
theorem State.tickPerStep_st (s : State) :
    s.tickPerStep.st = if s.cfg.timerPolicy = .perStep then countdown s.st else s.st := by
  unfold State.tickPerStep; cases s.cfg.timerPolicy <;> simp
@[simp] theorem State.tickPerStep_fb (s : State) : s.tickPerStep.fb = s.fb := by
  unfold State.tickPerStep; cases s.cfg.timerPolicy <;> rfl
@[simp] theorem State.tickPerStep_keys (s : State) : s.tickPerStep.keys = s.keys := by
  unfold State.tickPerStep; cases s.cfg.timerPolicy <;> rfl
@[simp] theorem State.tickPerStep_mem (s : State) : s.tickPerStep.mem = s.mem := by
  unfold State.tickPerStep; cases s.cfg.timerPolicy <;> rfl
@[simp] theorem State.tickPerStep_status (s : State) : s.tickPerStep.status = s.status := by
  unfold State.tickPerStep; cases s.cfg.timerPolicy <;> rfl
@[simp] theorem State.tickPerStep_cfg (s : State) : s.tickPerStep.cfg = s.cfg := by
  unfold State.tickPerStep; cases s.cfg.timerPolicy <;> rfl
@[simp] theorem State.tickPerStep_draws (s : State) : s.tickPerStep.draws = s.draws := by
  unfold State.tickPerStep; cases s.cfg.timerPolicy <;> rfl
@[simp] theorem State.tickPerStep_getV (s : State) (r : Reg) : s.tickPerStep.getV r = s.getV r := by
  simp [State.getV]

/-! ## A result and its flag -/

@[simp] theorem writeResultAndFlag_i (x : Reg) (r f : Byte) (s : State) : (writeResultAndFlag x r f s).i = s.i := by
  unfold writeResultAndFlag; cases s.cfg.flagOrder <;> rfl
@[simp] theorem writeResultAndFlag_pc (x : Reg) (r f : Byte) (s : State) : (writeResultAndFlag x r f s).pc = s.pc := by
  unfold writeResultAndFlag; cases s.cfg.flagOrder <;> rfl
@[simp] theorem writeResultAndFlag_sp (x : Reg) (r f : Byte) (s : State) : (writeResultAndFlag x r f s).sp = s.sp := by
  unfold writeResultAndFlag; cases s.cfg.flagOrder <;> rfl
@[simp] theorem writeResultAndFlag_stack (x : Reg) (r f : Byte) (s : State) : (writeResultAndFlag x r f s).stack = s.stack := by
  unfold writeResultAndFlag; cases s.cfg.flagOrder <;> rfl
@[simp] theorem writeResultAndFlag_dt (x : Reg) (r f : Byte) (s : State) : (writeResultAndFlag x r f s).dt = s.dt := by
  unfold writeResultAndFlag; cases s.cfg.flagOrder <;> rfl
@[simp] theorem writeResultAndFlag_st (x : Reg) (r f : Byte) (s : State) : (writeResultAndFlag x r f s).st = s.st := by
  unfold writeResultAndFlag; cases s.cfg.flagOrder <;> rfl
@[simp] theorem writeResultAndFlag_fb (x : Reg) (r f : Byte) (s : State) : (writeResultAndFlag x r f s).fb = s.fb := by
  unfold writeResultAndFlag; cases s.cfg.flagOrder <;> rfl
@[simp] theorem writeResultAndFlag_keys (x : Reg) (r f : Byte) (s : State) : (writeResultAndFlag x r f s).keys = s.keys := by
  unfold writeResultAndFlag; cases s.cfg.flagOrder <;> rfl
@[simp] theorem writeResultAndFlag_mem (x : Reg) (r f : Byte) (s : State) : (writeResultAndFlag x r f s).mem = s.mem := by
  unfold writeResultAndFlag; cases s.cfg.flagOrder <;> rfl
@[simp] theorem writeResultAndFlag_status (x : Reg) (r f : Byte) (s : State) : (writeResultAndFlag x r f s).status = s.status := by
  unfold writeResultAndFlag; cases s.cfg.flagOrder <;> rfl
@[simp] theorem writeResultAndFlag_cfg (x : Reg) (r f : Byte) (s : State) : (writeResultAndFlag x r f s).cfg = s.cfg := by
  unfold writeResultAndFlag; cases s.cfg.flagOrder <;> rfl
@[simp] theorem writeResultAndFlag_draws (x : Reg) (r f : Byte) (s : State) : (writeResultAndFlag x r f s).draws = s.draws := by
  unfold writeResultAndFlag; cases s.cfg.flagOrder <;> rfl

/-! ## The key capture -/

@[simp] theorem captureKey_i (x k : Reg) (ks : List Reg) (s : State) : (captureKey x k ks s).i = s.i := rfl
@[simp] theorem captureKey_pc (x k : Reg) (ks : List Reg) (s : State) : (captureKey x k ks s).pc = s.pc + 2 := rfl
@[simp] theorem captureKey_sp (x k : Reg) (ks : List Reg) (s : State) : (captureKey x k ks s).sp = s.sp := rfl
@[simp] theorem captureKey_stack (x k : Reg) (ks : List Reg) (s : State) : (captureKey x k ks s).stack = s.stack := rfl
@[simp] theorem captureKey_dt (x k : Reg) (ks : List Reg) (s : State) : (captureKey x k ks s).dt = s.dt := rfl
@[simp] theorem captureKey_st (x k : Reg) (ks : List Reg) (s : State) : (captureKey x k ks s).st = s.st := rfl
@[simp] theorem captureKey_fb (x k : Reg) (ks : List Reg) (s : State) : (captureKey x k ks s).fb = s.fb := rfl
@[simp] theorem captureKey_keys (x k : Reg) (ks : List Reg) (s : State) : (captureKey x k ks s).keys = s.keys := rfl
@[simp] theorem captureKey_mem (x k : Reg) (ks : List Reg) (s : State) : (captureKey x k ks s).mem = s.mem := rfl
@[simp] theorem captureKey_status (x k : Reg) (ks : List Reg) (s : State) : (captureKey x k ks s).status = s.status := rfl
@[simp] theorem captureKey_cfg (x k : Reg) (ks : List Reg) (s : State) : (captureKey x k ks s).cfg = s.cfg := rfl
@[simp] theorem captureKey_draws (x k : Reg) (ks : List Reg) (s : State) : (captureKey x k ks s).draws = s.draws + 1 := rfl

theorem captureKey_getV (x k q : Reg) (ks : List Reg) (s : State) :
    (captureKey x k ks s).getV q =
      if q = x then BitVec.ofNat 8 (chooseKey (Config.drawChoice s.draws) k ks).val else s.getV q :=
  State.getV_setV s x q _

/-! ## The compositor -/

@[simp] theorem composite_i (col row : Byte) (h : Nat) (s : State) : (composite col row h s).i = s.i := rfl
@[simp] theorem composite_pc (col row : Byte) (h : Nat) (s : State) : (composite col row h s).pc = s.pc := rfl
@[simp] theorem composite_sp (col row : Byte) (h : Nat) (s : State) : (composite col row h s).sp = s.sp := rfl
@[simp] theorem composite_stack (col row : Byte) (h : Nat) (s : State) : (composite col row h s).stack = s.stack := rfl
@[simp] theorem composite_dt (col row : Byte) (h : Nat) (s : State) : (composite col row h s).dt = s.dt := rfl
@[simp] theorem composite_st (col row : Byte) (h : Nat) (s : State) : (composite col row h s).st = s.st := rfl
@[simp] theorem composite_keys (col row : Byte) (h : Nat) (s : State) : (composite col row h s).keys = s.keys := rfl
@[simp] theorem composite_mem (col row : Byte) (h : Nat) (s : State) : (composite col row h s).mem = s.mem := rfl
@[simp] theorem composite_status (col row : Byte) (h : Nat) (s : State) : (composite col row h s).status = s.status := rfl
@[simp] theorem composite_cfg (col row : Byte) (h : Nat) (s : State) : (composite col row h s).cfg = s.cfg := rfl
@[simp] theorem composite_draws (col row : Byte) (h : Nat) (s : State) : (composite col row h s).draws = s.draws := rfl

end Sys2Proof.Machine
end

