-- ==== Sys2Proof/Laws/Ops.lean ====
section
/-!
SUPPORT. One law per shared operation: what it can do, cited by proofs instead of unfolding it.
-/

namespace Sys2Proof.Machine

/-! ## The range check (00_scope.md R12) -/

theorem rangeFault_of_inside {a : Word} {n : Nat} (h : a.toNat + n ≤ memSize) : rangeFault a n = none := by
  unfold rangeFault
  rw [if_neg]
  omega

theorem rangeFault_zero (a : Word) : rangeFault a 0 = none := by simp [rangeFault]

theorem rangeFault_of_outside {a : Word} {n : Nat} (hn : n ≠ 0) (h : ¬ a.toNat + n ≤ memSize) :
    rangeFault a n = some (BitVec.ofNat 16 (max a.toNat memSize)) := by
  unfold rangeFault
  rw [if_pos (by omega)]
  by_cases ha : a.toNat < memSize
  · rw [if_pos ha, Nat.max_eq_right (by omega)]
  · rw [if_neg ha, Nat.max_eq_left (by omega), BitVec.ofNat_toNat, BitVec.setWidth_eq]

theorem withRangeAtI_of_inside {n : Nat} {s : State} (h : InMemory s.i n) (instr : Instr) (t : State) :
    withRangeAtI instr n s t = .next t := by
  unfold withRangeAtI
  rw [rangeFault_of_inside h]

theorem withRangeAtI_of_outside {n : Nat} {s : State} (hn : n ≠ 0) (h : ¬ InMemory s.i n) (instr : Instr) (t : State) :
    withRangeAtI instr n s t = .next (s.takeFault (outOfBoundsAt s (some (encode instr)) s.i)) := by
  unfold withRangeAtI
  rw [rangeFault_of_outside hn h]
  rfl

/-- An access at I either reports the range fault or has its effect. -/
theorem withRangeAtI_cases {instr : Instr} {n : Nat} {s t u : State} (h : withRangeAtI instr n s t = .next u) :
    u = t ∨ ∃ a, u = s.takeFault (.outOfBoundsAddress s.pc (some (encode instr)) a) := by
  unfold withRangeAtI at h
  split at h <;> cases h
  · exact .inr ⟨_, rfl⟩
  · exact .inl rfl

theorem withRangeAtI_next (instr : Instr) (n : Nat) (s t : State) : ∃ u, withRangeAtI instr n s t = .next u := by
  unfold withRangeAtI
  split <;> exact ⟨_, rfl⟩

/-! ## The fetch (20_memory.md R55) -/

theorem getLsbD_zero_iff (a : Word) : a.getLsbD 0 = true ↔ a.toNat % 2 = 1 := by
  simp [BitVec.getLsbD, Nat.testBit_zero]

/-- The fetch, said once: the alignment fault, else the range fault, else the word at pc. -/
theorem fetch_eq (s : State) :
    fetch s =
      if s.pc.toNat % 2 = 1 ∧ s.cfg.oddPcPolicy = .fault then .error (.misalignedFetch s.pc)
      else if s.pc.toNat + 2 ≤ memSize then .ok (wordAtPc s)
      else .error (outOfBoundsAt s none s.pc) := by
  unfold fetch
  simp only [getLsbD_zero_iff]
  split
  · rfl
  · by_cases h : s.pc.toNat + 2 ≤ memSize
    · rw [rangeFault_of_inside h, if_pos h]; rfl
    · rw [rangeFault_of_outside (by decide) h, if_neg h]; rfl

theorem fetchable_iff (s : State) :
    Fetchable s ↔ ¬ (s.pc.toNat % 2 = 1 ∧ s.cfg.oddPcPolicy = .fault) ∧ s.pc.toNat + 2 ≤ memSize := by
  unfold Fetchable InMemory
  cases s.cfg.oddPcPolicy <;> simp

theorem fetch_of_fetchable {s : State} (h : Fetchable s) : fetch s = .ok (wordAtPc s) := by
  rw [fetchable_iff] at h
  rw [fetch_eq, if_neg h.1, if_pos h.2]

/-- The fetch gives a word exactly at a fetchable pc, and that word is the one at pc. -/
theorem fetch_ok_iff {s : State} {w : Word} : fetch s = .ok w ↔ Fetchable s ∧ w = wordAtPc s := by
  rw [fetch_eq, fetchable_iff]
  split
  · simp_all
  · split <;> simp_all [eq_comm]

/-- The fetch faults exactly at a pc that is not fetchable, and the record has that pc and no word. -/
theorem fetch_error {s : State} {f : Fault} (h : fetch s = .error f) :
    ¬ Fetchable s ∧ f.recordedPc = s.pc ∧ f.recordedWord = none := by
  rw [fetch_eq] at h
  rw [fetchable_iff]
  split at h
  · cases h
    exact ⟨fun hf => hf.1 ‹_›, rfl, rfl⟩
  · split at h <;> cases h
    exact ⟨fun hf => ‹¬ _› hf.2, rfl, rfl⟩

/-! ## The tick (44_timers.md R193, R196) -/

theorem countdown_toNat (t : Byte) : (countdown t).toNat = t.toNat - 1 := by
  unfold countdown
  split
  · simp_all
  · have : t ≠ 0#8 := ‹_›
    have h0 : t.toNat ≠ 0 := fun h => this (BitVec.eq_of_toNat_eq (by simpa using h))
    have hlt := t.isLt
    rw [BitVec.toNat_sub]
    simp
    omega

/-- What follows an instruction in its step: nothing after a fault, else the tick of the policy. -/
theorem finishStep_next (t : State) :
    finishStep (.next t) = .next (match t.status with | .faulted _ => t | _ => t.tickPerStep) := by
  unfold finishStep
  cases h : t.status <;> simp [h]

/-! ## Registers -/

theorem getElem_writeRegsFrom (v : Vector Byte 16) (first : Nat) (bs : List Byte) (k : Nat) (hk : k < 16) :
    (writeRegsFrom v first bs)[k] =
      if h : first ≤ k ∧ k - first < bs.length then bs[k - first]'h.2 else v[k] := by
  induction bs generalizing v first with
  | nil => simp [writeRegsFrom]
  | cons b bs ih =>
    rw [writeRegsFrom, ih]
    by_cases h1 : first + 1 ≤ k ∧ k - (first + 1) < bs.length
    · have h2 : first ≤ k ∧ k - first < (b :: bs).length := by simp only [List.length_cons]; omega
      have h3 : k - first = k - (first + 1) + 1 := by omega
      rw [dif_pos h1, dif_pos h2]
      simp only [h3, List.getElem_cons_succ]
    · rw [dif_neg h1]
      by_cases hb : k = first
      · subst hb; simp
      · have h2 : ¬ (first ≤ k ∧ k - first < (b :: bs).length) := by simp only [List.length_cons]; omega
        rw [dif_neg h2, Vector.getElem_setIfInBounds_ne _ (Ne.symm hb)]

/-- A result and its flag in the registers, under either order (42_register_ops.md R147). -/
theorem writeResultAndFlag_spec (x : Reg) (r f : Byte) (s : State) : ResultAndFlag x r f s (writeResultAndFlag x r f s) := by
  unfold ResultAndFlag RegsUnchanged writeResultAndFlag flagReg
  refine ⟨fun h => ?_, fun h ho => ?_, fun h ho => ?_, fun q hq => ?_⟩
  · cases s.cfg.flagOrder <;> simp [State.getV_setV, h, Ne.symm h]
  · subst h; simp [ho]
  · subst h; simp [ho]
  · simp only [List.mem_cons, List.not_mem_nil, or_false, not_or] at hq
    cases s.cfg.flagOrder <;> simp [State.getV_setV, hq]

/-! ## Keys (47_key_input.md) -/

theorem mem_newKeys {keys snap : KeyVector} {k : Reg} :
    k ∈ newKeys keys snap ↔ keys.getLsbD k.val = true ∧ snap.getLsbD k.val = false := by
  simp [newKeys, keyPressed]

theorem newKeys_eq_nil_iff {keys snap : KeyVector} :
    newKeys keys snap = [] ↔ ∀ k : Reg, keys.getLsbD k.val = true → snap.getLsbD k.val = true := by
  simp only [List.eq_nil_iff_forall_not_mem, mem_newKeys, not_and, Bool.not_eq_false]

theorem chooseKey_mem (n : Nat) (k : Reg) (ks : List Reg) : chooseKey n k ks ∈ k :: ks := List.getElem_mem _

end Sys2Proof.Machine
end

