-- ==== Sys2Proof/Laws/Draw.lean ====
section
/-!
SUPPORT. The laws of the sprite compositor (46_draw.md R211, R212, R215): what one bit, one byte and a whole sprite do to
each pixel and to the collision flag.
-/

namespace Sys2Proof.Machine

/-- Two framebuffers with the same pixels are equal. -/
theorem Framebuffer.ext_pixel {fb fb' : Framebuffer} (h : ∀ y x, fb.pixel y x = fb'.pixel y x) : fb = fb' := by
  apply Vector.ext
  intro y hy
  apply BitVec.eq_of_getLsbD_eq
  intro x hx
  exact h ⟨y, hy⟩ ⟨x, hx⟩

@[simp] theorem Framebuffer.pixel_clear (y : Fin 32) (x : Fin 64) : Framebuffer.clear.pixel y x = false := by
  simp [Framebuffer.pixel, Framebuffer.clear]

/-- A pixel after one XOR. -/
theorem Framebuffer.pixel_xorPixel (fb : Framebuffer) (y r : Fin 32) (x q : Fin 64) (bit : Bool) :
    (fb.xorPixel y x bit).pixel r q = (fb.pixel r q != (bit && decide (r = y ∧ q = x))) := by
  unfold Framebuffer.xorPixel Framebuffer.pixel
  cases bit
  · simp
  · by_cases hr : r = y
    · subst hr
      have hq := q.isLt
      simp [Fin.ext_iff, eq_comm]
    · have hv : y.val ≠ r.val := fun h => hr (Fin.ext h.symm)
      simp [hr, Vector.getElem_set_ne, hv]

/-- Bit `i` from the left of a sprite byte at column `col` lands on column `q` and is set. -/
def BitLands (col : Nat) (b : Byte) (n : Nat) (q : Fin 64) : Prop :=
  ∃ i < n, (col + i) % 64 = q.val ∧ b.getLsbD (7 - i) = true

/-- The first `n` bits of a sprite byte, drawn in row `y`. -/
theorem foldl_plotBit (col : Nat) (y : Fin 32) (b : Byte) (canvas : Framebuffer × Bool) (n : Nat) (hn : n ≤ 8) :
    let after := (List.range n).foldl (fun c i => plotBit y (Fin.ofNat 64 (col + i)) (b.getLsbD (7 - i)) c) canvas
    (∀ r q, after.1.pixel r q = true ↔ ¬ (canvas.1.pixel r q = true ↔ r = y ∧ BitLands col b n q)) ∧
    (after.2 = true ↔ canvas.2 = true ∨ ∃ q, canvas.1.pixel y q = true ∧ BitLands col b n q) := by
  induction n with
  | zero => simp [BitLands]
  | succ n ih =>
    obtain ⟨ihp, ihc⟩ := ih (by omega)
    simp only [List.range_succ, List.foldl_append, List.foldl_cons, List.foldl_nil]
    generalize (List.range n).foldl _ canvas = mid at ihp ihc ⊢
    have lands : ∀ q, BitLands col b (n + 1) q ↔
        BitLands col b n q ∨ ((col + n) % 64 = q.val ∧ b.getLsbD (7 - n) = true) := fun q => by
      unfold BitLands
      constructor
      · rintro ⟨i, hi, h⟩
        rcases Nat.lt_succ_iff_lt_or_eq.mp hi with hi | rfl
        · exact .inl ⟨i, hi, h⟩
        · exact .inr h
      · rintro (⟨i, hi, h⟩ | h)
        · exact ⟨i, by omega, h⟩
        · exact ⟨n, by omega, h⟩
    have fresh : ∀ q : Fin 64, (col + n) % 64 = q.val → ¬ BitLands col b n q := by
      rintro q h ⟨i, hi, h', -⟩
      omega
    generalize hx : Fin.ofNat 64 (col + n) = x
    have hval : (col + n) % 64 = x.val := by rw [← hx]; rfl
    have hcol : ∀ q : Fin 64, q = x ↔ (col + n) % 64 = q.val := fun q => by rw [Fin.ext_iff, hval, eq_comm]
    constructor
    · intro r q
      have h1 := ihp r q
      have h2 := fresh q
      simp only [plotBit, Framebuffer.pixel_xorPixel, hcol, lands]
      clear ih ihp ihc lands fresh hcol hval
      by_cases hl : BitLands col b n q <;> by_cases hr : r = y <;> by_cases hq : (col + n) % 64 = q.val <;>
        cases b.getLsbD (7 - n) <;> simp_all
    · have h1 := ihp y x
      have h2 := fresh x hval
      have h3 : mid.1.pixel y x = canvas.1.pixel y x := by
        rw [Bool.eq_iff_iff, h1]; simp [h2]
      simp only [plotBit, h3, Bool.or_eq_true, Bool.and_eq_true, ihc, lands]
      constructor
      · rintro ((h | ⟨q, hq, h⟩) | ⟨hb, hq⟩)
        · exact .inl h
        · exact .inr ⟨q, hq, .inl h⟩
        · exact .inr ⟨_, hq, .inr ⟨hval, hb⟩⟩
      · rintro (h | ⟨q, hq, h | ⟨h, hb⟩⟩)
        · exact .inl (.inl h)
        · exact .inl (.inr ⟨q, hq, h⟩)
        · rw [← hcol] at h
          subst h
          exact .inr ⟨hb, hq⟩

/-- A whole sprite byte in row `y`. -/
theorem plotByte_spec (col : Nat) (y : Fin 32) (b : Byte) (canvas : Framebuffer × Bool) :
    (∀ r q, (plotByte col y b canvas).1.pixel r q = true ↔
      ¬ (canvas.1.pixel r q = true ↔ r = y ∧ BitLands col b 8 q)) ∧
    ((plotByte col y b canvas).2 = true ↔
      canvas.2 = true ∨ ∃ q, canvas.1.pixel y q = true ∧ BitLands col b 8 q) :=
  foldl_plotBit col y b canvas 8 (Nat.le_refl 8)

/-- A set bit of the sprite `bs` at column `col` and row `row` lands on the pixel (r, q). -/
def SpriteLands (col row : Nat) (bs : List Byte) (r : Fin 32) (q : Fin 64) : Prop :=
  ∃ j, ∃ h : j < bs.length, (row + j) % 32 = r.val ∧ BitLands col bs[j] 8 q

/-- A sprite of at most 32 rows: no pixel is visited twice (R215), so each is XORed with the bit that lands on it, and the
flag is set exactly when a set bit lands on a set pixel. -/
theorem plotBytes_spec (col row : Nat) (bs : List Byte) (hlen : bs.length ≤ 32) (canvas : Framebuffer × Bool) :
    (∀ r q, (plotBytes col row bs canvas).1.pixel r q = true ↔
      ¬ (canvas.1.pixel r q = true ↔ SpriteLands col row bs r q)) ∧
    ((plotBytes col row bs canvas).2 = true ↔
      canvas.2 = true ∨ ∃ r q, canvas.1.pixel r q = true ∧ SpriteLands col row bs r q) := by
  induction bs generalizing row canvas with
  | nil => simp [plotBytes, SpriteLands]
  | cons b bs ih =>
    simp only [List.length_cons] at hlen
    rw [plotBytes]
    generalize hy : Fin.ofNat 32 row = y
    have hrow : ∀ r : Fin 32, r = y ↔ row % 32 = r.val := fun r => by rw [Fin.ext_iff, eq_comm, ← hy]; rfl
    obtain ⟨hp, hc⟩ := plotByte_spec col y b canvas
    obtain ⟨ihp, ihc⟩ := ih (row + 1) (by omega) (plotByte col y b canvas)
    have lands : ∀ r q, SpriteLands col row (b :: bs) r q ↔
        (r = y ∧ BitLands col b 8 q) ∨ SpriteLands col (row + 1) bs r q := fun r q => by
      unfold SpriteLands
      rw [hrow]
      constructor
      · rintro ⟨j, hj, h1, h2⟩
        cases j with
        | zero => exact .inl ⟨h1, h2⟩
        | succ j => exact .inr ⟨j, by simpa using hj, by rw [← h1]; congr 1; omega, h2⟩
      · rintro (⟨h1, h2⟩ | ⟨j, hj, h1, h2⟩)
        · exact ⟨0, by simp, h1, h2⟩
        · exact ⟨j + 1, by simpa using hj, by rw [← h1]; congr 1; omega, h2⟩
    have fresh : ∀ r q, SpriteLands col (row + 1) bs r q → r ≠ y := by
      rintro r q ⟨j, hj, h1, -⟩ h
      rw [hrow] at h
      omega
    have same : ∀ r q, r ≠ y → ((plotByte col y b canvas).1.pixel r q = true ↔ canvas.1.pixel r q = true) :=
      fun r q h => by rw [hp]; simp [h]
    constructor
    · intro r q
      have h1 := hp r q
      have h2 := ihp r q
      have h3 := fresh r q
      rw [lands, h2, h1]
      clear ih ihp ihc hp hc lands fresh same hrow
      tauto
    · rw [ihc, hc]
      constructor
      · rintro ((h | ⟨q, hq, h⟩) | ⟨r, q, hq, h⟩)
        · exact .inl h
        · exact .inr ⟨_, q, hq, (lands _ _).mpr (.inl ⟨rfl, h⟩)⟩
        · exact .inr ⟨r, q, (same r q (fresh r q h)).mp hq, (lands _ _).mpr (.inr h)⟩
      · rintro (h | ⟨r, q, hq, h⟩)
        · exact .inl (.inl h)
        · rcases (lands _ _).mp h with ⟨rfl, h'⟩ | h'
          · exact .inl (.inr ⟨q, hq, h'⟩)
          · exact .inr ⟨r, q, (same r q (fresh r q h')).mpr hq, h'⟩

/-- The bits that land from the sprite at I are those `SpriteCovers` names. -/
theorem spriteLands_iff (s : State) (col row : Byte) (h : Nat) (r : Fin 32) (q : Fin 64) :
    SpriteLands col.toNat row.toNat (s.mem.readBytes s.i.toNat h) r q ↔ SpriteCovers s col row h r q := by
  unfold SpriteLands SpriteCovers BitLands
  constructor
  · rintro ⟨j, hj, h1, b, hb, h2, h3⟩
    rw [Memory.getElem_readBytes] at h3
    exact ⟨j, by simpa using hj, b, hb, h1, h2, h3⟩
  · rintro ⟨j, hj, b, hb, h1, h2, h3⟩
    exact ⟨j, by simpa using hj, h1, b, hb, h2, by rw [Memory.getElem_readBytes]; exact h3⟩

/-- The framebuffer a draw leaves (R211). -/
theorem composite_pixel (col row : Byte) (n : Nibble) (s : State) (r : Fin 32) (q : Fin 64) :
    (composite col row n.toNat s).fb.pixel r q = true ↔
      ¬ (s.fb.pixel r q = true ↔ SpriteCovers s col row n.toNat r q) := by
  have hn := n.isLt
  rw [← spriteLands_iff]
  exact (plotBytes_spec _ _ _ (by simp; omega) (s.fb, false)).1 r q

/-- VF after a draw (R212): 1 when a set pixel is under a set bit, else 0. -/
theorem composite_getV (col row : Byte) (n : Nibble) (s : State) (k : Reg) :
    ((∃ r q, s.fb.pixel r q = true ∧ SpriteCovers s col row n.toNat r q) →
      (composite col row n.toNat s).getV k = if k = 15 then 1 else s.getV k) ∧
    (¬ (∃ r q, s.fb.pixel r q = true ∧ SpriteCovers s col row n.toNat r q) →
      (composite col row n.toNat s).getV k = if k = 15 then 0 else s.getV k) := by
  have hn := n.isLt
  have h := (plotBytes_spec col.toNat row.toNat (s.mem.readBytes s.i.toNat n.toNat) (by simp; omega) (s.fb, false)).2
  simp only [Bool.false_eq_true, false_or, spriteLands_iff] at h
  have e : (composite col row n.toNat s).getV k =
      if k = 15 then flagByte (plotBytes col.toNat row.toNat (s.mem.readBytes s.i.toNat n.toNat) (s.fb, false)).2
      else s.getV k := State.getV_setV _ flagReg k _
  rw [e, ← h]
  constructor
  · intro hc; rw [hc]; rfl
  · intro hc; rw [Bool.not_eq_true] at hc; rw [hc]; rfl

/-- A draw leaves I and memory, so the sprite at the same place covers the same pixels. -/
theorem spriteCovers_composite (col row c r : Byte) (h n : Nat) (s : State) (y : Fin 32) (x : Fin 64) :
    SpriteCovers (composite col row h s) c r n y x ↔ SpriteCovers s c r n y x := Iff.rfl

/-- R217 as far as R211 and R212 allow it: the second of two draws reports VF = 1 where some set bit met a clear pixel on
the first, whatever the other bits met. -/
theorem composite_again_collides {col row : Byte} {n : Nibble} {s : State}
    (fresh : ∃ y x, SpriteCovers s col row n.toNat y x ∧ s.fb.pixel y x = false) :
    (composite col row n.toNat (composite col row n.toNat s)).getV 15 = 1 := by
  obtain ⟨y, x, h, clear⟩ := fresh
  refine (composite_getV col row n _ 15).1 ⟨y, x, ?_, (spriteCovers_composite ..).mpr h⟩
  rw [composite_pixel]
  simp [h, clear]

/-- The case in which R211 and R212 force VF = 0 against R217's second sentence (log entry 20): every set bit met a set
pixel on the first draw. -/
theorem composite_again_of_all_set {col row : Byte} {n : Nibble} {s : State}
    (set : ∀ y x, SpriteCovers s col row n.toNat y x → s.fb.pixel y x = true) :
    (composite col row n.toNat (composite col row n.toNat s)).getV 15 = 0 := by
  refine (composite_getV col row n _ 15).2 ?_
  rintro ⟨y, x, hp, h⟩
  rw [spriteCovers_composite] at h
  rw [composite_pixel] at hp
  simp [h, set y x h] at hp

/-- R217 where the sprite bytes are all zero: a draw changes no pixel and reports VF = 0. -/
theorem composite_of_zero_sprite {col row : Byte} {n : Nibble} {s : State}
    (zero : ∀ j < n.toNat, s.mem.read (s.i.toNat + j) = 0) :
    (composite col row n.toNat s).fb = s.fb ∧ (composite col row n.toNat s).getV 15 = 0 := by
  have none : ∀ y x, ¬ SpriteCovers s col row n.toNat y x := by
    rintro y x ⟨j, hj, b, -, -, -, h⟩
    rw [zero j hj] at h
    simp at h
  refine ⟨Framebuffer.ext_pixel fun y x => ?_, (composite_getV col row n s 15).2 ?_⟩
  · rw [Bool.eq_iff_iff, composite_pixel]
    simp [none]
  · rintro ⟨y, x, -, h⟩
    exact none y x h

/-- A draw that runs composites and advances pc (R210). -/
theorem exec_drw_of_runs {n : Nibble} {s : State} (h : DrawRuns n s) (x y : Reg) :
    exec (.drw x y n) s = .next (composite (s.getV x) (s.getV y) n.toNat s).advance := by
  simp only [exec, execDrw, if_neg h.1]
  by_cases hn : n = 0
  · subst hn
    unfold withRangeAtI
    rw [show (0 : Nibble).toNat = 0 from rfl, rangeFault_zero]
  · exact withRangeAtI_of_inside (h.2 hn) _ _

end Sys2Proof.Machine
end

