-- ==== Sys2Proof/Laws/Encoding.lean ====
section
/-!
SUPPORT. The formats of 30_encoding.md R73 as numbers, and the fields of R72 of a word in each format.
-/

namespace Sys2Proof

theorem toNat_append_add {n m : Nat} (a : BitVec n) (b : BitVec m) : (a ++ b).toNat = a.toNat * 2 ^ m + b.toNat := by
  rw [BitVec.toNat_append, ← Nat.shiftLeft_add_eq_or_of_lt b.isLt, Nat.shiftLeft_eq]

@[simp] theorem regBits_toNat (r : Reg) : (regBits r).toNat = r.val := rfl

/-! ## Words as numbers -/

theorem formatA_toNat (op : BitVec 4) (a : Addr) : (formatA op a).toNat = op.toNat * 4096 + a.toNat :=
  toNat_append_add op a

theorem formatXK_toNat (op : BitVec 4) (x : Reg) (nn : Byte) :
    (formatXK op x nn).toNat = op.toNat * 4096 + x.val * 256 + nn.toNat := by
  have h := toNat_append_add op (regBits x)
  rw [regBits_toNat] at h
  refine (toNat_append_add (op ++ regBits x) nn).trans ?_
  rw [h]
  omega

theorem formatX_toNat (op : BitVec 4) (x : Reg) (s : Byte) :
    (formatX op x s).toNat = op.toNat * 4096 + x.val * 256 + s.toNat := formatXK_toNat op x s

theorem formatXY_toNat (op : BitVec 4) (x y : Reg) (s : Nibble) :
    (formatXY op x y s).toNat = op.toNat * 4096 + x.val * 256 + y.val * 16 + s.toNat := by
  have h := toNat_append_add op (regBits x)
  have h' := toNat_append_add (op ++ regBits x) (regBits y)
  rw [regBits_toNat] at h h'
  refine (toNat_append_add (op ++ regBits x ++ regBits y) s).trans ?_
  rw [h', h]
  omega

theorem wordOfBytes_toNat (b0 b1 : Byte) : (wordOfBytes b0 b1).toNat = b0.toNat * 256 + b1.toNat :=
  toNat_append_add b0 b1

/-! ## Fields as numbers -/

theorem opField_eq (w : Word) : opField w = w.toNat / 4096 := by
  have := w.isLt
  simp only [opField, BitVec.extractLsb'_toNat, Nat.shiftRight_eq_div_pow]
  omega

theorem xField_val (w : Word) : (xField w).val = w.toNat / 256 % 16 := by
  simp only [xField, BitVec.extractLsb', BitVec.ofNat, Fin.Internal.ofNat, Nat.shiftRight_eq_div_pow]

theorem yField_val (w : Word) : (yField w).val = w.toNat / 16 % 16 := by
  simp only [yField, BitVec.extractLsb', BitVec.ofNat, Fin.Internal.ofNat, Nat.shiftRight_eq_div_pow]

theorem nField_toNat (w : Word) : (nField w).toNat = w.toNat % 16 := by
  simp [nField, BitVec.extractLsb'_toNat]

theorem nnField_toNat (w : Word) : (nnField w).toNat = w.toNat % 256 := by
  simp [nnField, BitVec.extractLsb'_toNat]

theorem nnnField_toNat (w : Word) : (nnnField w).toNat = w.toNat % 4096 := by
  simp [nnnField, BitVec.extractLsb'_toNat]

/-! ## The fields of a word in a format -/

section
variable (op : BitVec 4) (x y : Reg) (a : Addr) (nn : Byte) (n : Nibble)

@[simp] theorem opField_formatA : opField (formatA op a) = op.toNat := by
  have := a.isLt
  rw [opField_eq, formatA_toNat]; omega

@[simp] theorem nnnField_formatA : nnnField (formatA op a) = a := by
  have := a.isLt
  apply BitVec.eq_of_toNat_eq; rw [nnnField_toNat, formatA_toNat]; omega

@[simp] theorem opField_formatXK : opField (formatXK op x nn) = op.toNat := by
  have := nn.isLt
  rw [opField_eq, formatXK_toNat]; omega

@[simp] theorem xField_formatXK : xField (formatXK op x nn) = x := by
  have := nn.isLt
  apply Fin.ext; rw [xField_val, formatXK_toNat]; omega

@[simp] theorem nnField_formatXK : nnField (formatXK op x nn) = nn := by
  have := nn.isLt
  apply BitVec.eq_of_toNat_eq; rw [nnField_toNat, formatXK_toNat]; omega

@[simp] theorem opField_formatX : opField (formatX op x nn) = op.toNat := opField_formatXK op x nn

@[simp] theorem xField_formatX : xField (formatX op x nn) = x := xField_formatXK op x nn

@[simp] theorem nnField_formatX : nnField (formatX op x nn) = nn := nnField_formatXK op x nn

@[simp] theorem opField_formatXY : opField (formatXY op x y n) = op.toNat := by
  have := n.isLt
  rw [opField_eq, formatXY_toNat]; omega

@[simp] theorem xField_formatXY : xField (formatXY op x y n) = x := by
  have := n.isLt
  apply Fin.ext; rw [xField_val, formatXY_toNat]; omega

@[simp] theorem yField_formatXY : yField (formatXY op x y n) = y := by
  have := n.isLt
  apply Fin.ext; rw [yField_val, formatXY_toNat]; omega

@[simp] theorem nField_formatXY : nField (formatXY op x y n) = n := by
  have := n.isLt
  apply BitVec.eq_of_toNat_eq; rw [nField_toNat, formatXY_toNat]; omega

end

/-! ## A word from its fields -/

theorem formatA_of_fields {w : Word} {op : BitVec 4} (h : opField w = op.toNat) : formatA op (nnnField w) = w := by
  apply BitVec.eq_of_toNat_eq
  rw [formatA_toNat, nnnField_toNat, ← h, opField_eq]; omega

theorem formatXK_of_fields {w : Word} {op : BitVec 4} (h : opField w = op.toNat) :
    formatXK op (xField w) (nnField w) = w := by
  apply BitVec.eq_of_toNat_eq
  rw [formatXK_toNat, xField_val, nnField_toNat, ← h, opField_eq]; omega

theorem formatX_of_fields {w : Word} {op : BitVec 4} {s : Byte} (h : opField w = op.toNat)
    (hs : (nnField w).toNat = s.toNat) : formatX op (xField w) s = w := by
  rw [← BitVec.eq_of_toNat_eq hs]; exact formatXK_of_fields h

theorem formatXY_of_fields {w : Word} {op : BitVec 4} {s : Nibble} (h : opField w = op.toNat)
    (hs : (nField w).toNat = s.toNat) : formatXY op (xField w) (yField w) s = w := by
  rw [← BitVec.eq_of_toNat_eq hs]
  apply BitVec.eq_of_toNat_eq
  rw [formatXY_toNat, xField_val, yField_val, nField_toNat, ← h, opField_eq]; omega

end Sys2Proof
end

