-- ==== Sys2Proof/Laws/PerInstr.lean ====
section
/-!
SUPPORT. Family RowMatch, one lemma per instruction: its word is of its own row of spec/opcode_table.json, and that row is
in the table (30_encoding.md R76).
-/

namespace Sys2Proof.Laws.RowMatch

/-- The instruction's word is of its row, and the row is one of the table's. -/
def Statement (i : Instr) : Prop := i.row.covers (encode i) = true ∧ i.row ∈ opcodeRows

/-! ## The fixed bits of a word in each format (R73) -/

theorem append_and_append {n m : Nat} (a c : BitVec n) (b d : BitVec m) :
    (a ++ b) &&& (c ++ d) = (a &&& c) ++ (b &&& d) := by
  apply BitVec.eq_of_getLsbD_eq
  intro i hi
  simp only [BitVec.getLsbD_and, BitVec.getLsbD_append]
  split <;> rfl

theorem formatA_and (op : BitVec 4) (a : Addr) : formatA op a &&& 0xF000#16 = op ++ 0#12 := by
  rw [show (0xF000#16) = BitVec.allOnes 4 ++ 0#12 from rfl]
  unfold formatA
  rw [append_and_append, BitVec.and_allOnes, BitVec.and_zero]

theorem formatXK_and (op : BitVec 4) (x : Reg) (nn : Byte) : formatXK op x nn &&& 0xF000#16 = op ++ 0#4 ++ 0#8 := by
  rw [show (0xF000#16) = BitVec.allOnes 4 ++ 0#4 ++ 0#8 from rfl]
  unfold formatXK
  rw [append_and_append, append_and_append, BitVec.and_allOnes, BitVec.and_zero, BitVec.and_zero]

theorem formatX_and (op : BitVec 4) (x : Reg) (s : Byte) : formatX op x s &&& 0xF0FF#16 = op ++ 0#4 ++ s := by
  rw [show (0xF0FF#16) = BitVec.allOnes 4 ++ 0#4 ++ BitVec.allOnes 8 from rfl]
  unfold formatX
  rw [append_and_append, append_and_append, BitVec.and_allOnes, BitVec.and_zero, BitVec.and_allOnes]

theorem formatXY_and (op : BitVec 4) (x y : Reg) (s : Nibble) :
    formatXY op x y s &&& 0xF00F#16 = op ++ 0#4 ++ 0#4 ++ s := by
  rw [show (0xF00F#16) = BitVec.allOnes 4 ++ 0#4 ++ 0#4 ++ BitVec.allOnes 4 from rfl]
  unfold formatXY
  rw [append_and_append, append_and_append, append_and_append]
  simp only [BitVec.and_allOnes, BitVec.and_zero]

theorem formatXYN_and (op : BitVec 4) (x y : Reg) (n : Nibble) :
    formatXY op x y n &&& 0xF000#16 = op ++ 0#4 ++ 0#4 ++ 0#4 := by
  rw [show (0xF000#16) = BitVec.allOnes 4 ++ 0#4 ++ 0#4 ++ 0#4 from rfl]
  unfold formatXY
  rw [append_and_append, append_and_append, append_and_append]
  simp only [BitVec.and_allOnes, BitVec.and_zero]

theorem covers_of_and {r : OpcodeRow} {w : Word} (h : w &&& r.mask = r.fixed) : r.covers w = true := by
  simp [OpcodeRow.covers, h]

/-! ## One lemma per instruction -/

theorem cls : Statement .cls := ⟨rfl, by decide⟩
theorem ret : Statement .ret := ⟨rfl, by decide⟩
theorem jp (nnn : Addr) : Statement (.jp nnn) := ⟨covers_of_and (formatA_and ..), by simp only [Instr.row]; decide⟩
theorem call (nnn : Addr) : Statement (.call nnn) := ⟨covers_of_and (formatA_and ..), by simp only [Instr.row]; decide⟩
theorem jpV0 (nnn : Addr) : Statement (.jpV0 nnn) := ⟨covers_of_and (formatA_and ..), by simp only [Instr.row]; decide⟩
theorem seImm (x : Reg) (nn : Byte) : Statement (.seImm x nn) := ⟨covers_of_and (formatXK_and ..), by simp only [Instr.row]; decide⟩
theorem sneImm (x : Reg) (nn : Byte) : Statement (.sneImm x nn) := ⟨covers_of_and (formatXK_and ..), by simp only [Instr.row]; decide⟩
theorem seReg (x y : Reg) : Statement (.seReg x y) := ⟨covers_of_and (formatXY_and ..), by simp only [Instr.row]; decide⟩
theorem sneReg (x y : Reg) : Statement (.sneReg x y) := ⟨covers_of_and (formatXY_and ..), by simp only [Instr.row]; decide⟩
theorem ldImm (x : Reg) (nn : Byte) : Statement (.ldImm x nn) := ⟨covers_of_and (formatXK_and ..), by simp only [Instr.row]; decide⟩
theorem addImm (x : Reg) (nn : Byte) : Statement (.addImm x nn) := ⟨covers_of_and (formatXK_and ..), by simp only [Instr.row]; decide⟩
theorem ldReg (x y : Reg) : Statement (.ldReg x y) := ⟨covers_of_and (formatXY_and ..), by simp only [Instr.row]; decide⟩
theorem orReg (x y : Reg) : Statement (.orReg x y) := ⟨covers_of_and (formatXY_and ..), by simp only [Instr.row]; decide⟩
theorem andReg (x y : Reg) : Statement (.andReg x y) := ⟨covers_of_and (formatXY_and ..), by simp only [Instr.row]; decide⟩
theorem xorReg (x y : Reg) : Statement (.xorReg x y) := ⟨covers_of_and (formatXY_and ..), by simp only [Instr.row]; decide⟩
theorem addReg (x y : Reg) : Statement (.addReg x y) := ⟨covers_of_and (formatXY_and ..), by simp only [Instr.row]; decide⟩
theorem subReg (x y : Reg) : Statement (.subReg x y) := ⟨covers_of_and (formatXY_and ..), by simp only [Instr.row]; decide⟩
theorem shr (x y : Reg) : Statement (.shr x y) := ⟨covers_of_and (formatXY_and ..), by simp only [Instr.row]; decide⟩
theorem shl (x y : Reg) : Statement (.shl x y) := ⟨covers_of_and (formatXY_and ..), by simp only [Instr.row]; decide⟩
theorem ldI (nnn : Addr) : Statement (.ldI nnn) := ⟨covers_of_and (formatA_and ..), by simp only [Instr.row]; decide⟩
theorem addI (x : Reg) : Statement (.addI x) := ⟨covers_of_and (formatX_and ..), by simp only [Instr.row]; decide⟩
theorem ldF (x : Reg) : Statement (.ldF x) := ⟨covers_of_and (formatX_and ..), by simp only [Instr.row]; decide⟩
theorem ldB (x : Reg) : Statement (.ldB x) := ⟨covers_of_and (formatX_and ..), by simp only [Instr.row]; decide⟩
theorem storeRegs (x : Reg) : Statement (.storeRegs x) := ⟨covers_of_and (formatX_and ..), by simp only [Instr.row]; decide⟩
theorem loadRegs (x : Reg) : Statement (.loadRegs x) := ⟨covers_of_and (formatX_and ..), by simp only [Instr.row]; decide⟩
theorem ldFromDt (x : Reg) : Statement (.ldFromDt x) := ⟨covers_of_and (formatX_and ..), by simp only [Instr.row]; decide⟩
theorem ldDt (x : Reg) : Statement (.ldDt x) := ⟨covers_of_and (formatX_and ..), by simp only [Instr.row]; decide⟩
theorem ldSt (x : Reg) : Statement (.ldSt x) := ⟨covers_of_and (formatX_and ..), by simp only [Instr.row]; decide⟩
theorem rnd (x : Reg) (nn : Byte) : Statement (.rnd x nn) := ⟨covers_of_and (formatXK_and ..), by simp only [Instr.row]; decide⟩
theorem drw (x y : Reg) (n : Nibble) : Statement (.drw x y n) := ⟨covers_of_and (formatXYN_and ..), by simp only [Instr.row]; decide⟩
theorem skp (x : Reg) : Statement (.skp x) := ⟨covers_of_and (formatX_and ..), by simp only [Instr.row]; decide⟩
theorem sknp (x : Reg) : Statement (.sknp x) := ⟨covers_of_and (formatX_and ..), by simp only [Instr.row]; decide⟩
theorem ldKey (x : Reg) : Statement (.ldKey x) := ⟨covers_of_and (formatX_and ..), by simp only [Instr.row]; decide⟩
theorem subn (x y : Reg) : Statement (.subn x y) := ⟨covers_of_and (formatXY_and ..), by simp only [Instr.row]; decide⟩

end Sys2Proof.Laws.RowMatch
end

