-- ==== Sys2Proof/Laws/Step.lean ====
section
/-!
SUPPORT. What an instruction and a step can do, said once: every instruction answers a next state, which is a reported
fault, the suspension of FX0A, or its effect with Status as it was.
-/

namespace Sys2Proof.Machine

/-- How an instruction ends: a fault that records this instruction at this pc, the suspension of FX0A, or an effect that
leaves Status. -/
def InstrEnds (i : Instr) (s t : State) : Prop :=
  (∃ f, t = s.takeFault f ∧ f.recordedPc = s.pc ∧ f.recordedWord = some (encode i)) ∨
  (∃ x, i = .ldKey x ∧ t = { s with status := .awaitingKey x (firstSnapshot s) }) ∨
  t.status = s.status

theorem exec_ends (i : Instr) (s : State) : ∃ t, exec i s = .next t ∧ InstrEnds i s t := by
  have range : ∀ (n : Nat) (t : State), t.status = s.status →
      ∃ u, withRangeAtI i n s t = .next u ∧ InstrEnds i s u := fun n t ht => by
    obtain ⟨u, hu⟩ := withRangeAtI_next i n s t
    refine ⟨u, hu, ?_⟩
    rcases withRangeAtI_cases hu with rfl | ⟨a, rfl⟩
    · exact .inr (.inr ht)
    · exact .inl ⟨_, rfl, rfl, rfl⟩
  have key : ∀ (x : Reg) (want : Bool), ∃ t, skipOnKey i x want s = .next t ∧ InstrEnds i s t := fun x want => by
    unfold skipOnKey
    split
    · exact ⟨_, rfl, .inl ⟨_, rfl, rfl, rfl⟩⟩
    · exact ⟨_, rfl, .inr (.inr rfl)⟩
  cases i with
  | ret =>
    simp only [exec, execRet]
    split
    · exact ⟨_, rfl, .inl ⟨_, rfl, rfl, rfl⟩⟩
    · exact ⟨_, rfl, .inr (.inr rfl)⟩
  | call nnn =>
    simp only [exec, execCall]
    split
    · exact ⟨_, rfl, .inl ⟨_, rfl, rfl, rfl⟩⟩
    · exact ⟨_, rfl, .inr (.inr rfl)⟩
  | drw x y n =>
    simp only [exec, execDrw]
    split
    · exact ⟨_, rfl, .inl ⟨_, rfl, rfl, rfl⟩⟩
    · exact range _ _ rfl
  | ldB x => exact range _ _ rfl
  | storeRegs x => exact range _ _ rfl
  | loadRegs x => exact range _ _ rfl
  | skp x => exact key x true
  | sknp x => exact key x false
  | ldKey x =>
    simp only [exec, execLdKey]
    split
    · exact ⟨_, rfl, .inr (.inl ⟨x, rfl, rfl⟩)⟩
    · exact ⟨_, rfl, .inr (.inr rfl)⟩
  | addReg x y => exact ⟨_, rfl, .inr (.inr (writeResultAndFlag_status ..))⟩
  | subReg x y => exact ⟨_, rfl, .inr (.inr (writeResultAndFlag_status ..))⟩
  | shr x y => exact ⟨_, rfl, .inr (.inr (writeResultAndFlag_status ..))⟩
  | shl x y => exact ⟨_, rfl, .inr (.inr (writeResultAndFlag_status ..))⟩
  | subn x y => exact ⟨_, rfl, .inr (.inr (writeResultAndFlag_status ..))⟩
  | _ => exact ⟨_, rfl, .inr (.inr rfl)⟩

/-- Every instruction answers a next state. -/
theorem exec_next (i : Instr) (s : State) : ∃ t, exec i s = .next t :=
  (exec_ends i s).imp fun _ h => h.1

theorem ends_of_exec {i : Instr} {s t : State} (h : exec i s = .next t) : InstrEnds i s t := by
  obtain ⟨u, hu, hends⟩ := exec_ends i s
  cases h.symm.trans hu
  exact hends

/-- A step by the engine status (70_reset_and_hazards.md R410). -/
theorem step_of_faulted {s : State} {f : Fault} (h : s.status = .faulted f) : step s = .fault f := by
  unfold step; rw [h]

theorem step_of_awaiting {s : State} {x : Reg} {snap : KeyVector} (h : s.status = .awaitingKey x snap) :
    step s = .next (waitStep x snap s) := by
  unfold step; rw [h]

theorem step_of_running {s : State} (h : s.status = .running) : step s = runStep s := by
  unfold step; rw [h]

/-- What a running step can do: report the fault of the fetch, report the unknown word, or run the decoded instruction and
finish the step. -/
theorem runStep_cases (s : State) :
    (∃ f, fetch s = .error f ∧ runStep s = .next (s.takeFault f)) ∨
    (Fetchable s ∧ decodeWord s.cfg.hasSubn (wordAtPc s) = none ∧
      runStep s = .next (s.takeFault (.unknownInstruction s.pc (wordAtPc s)))) ∨
    (∃ i t, Fetchable s ∧ decodeWord s.cfg.hasSubn (wordAtPc s) = some i ∧ exec i s = .next t ∧
      runStep s = finishStep (.next t)) := by
  unfold runStep
  cases hf : fetch s with
  | error f => exact .inl ⟨f, rfl, rfl⟩
  | ok w =>
    obtain ⟨hok, rfl⟩ := fetch_ok_iff.mp hf
    cases hd : decodeWord s.cfg.hasSubn (wordAtPc s) with
    | none => exact .inr (.inl ⟨hok, rfl, by simp [hd]⟩)
    | some i =>
      obtain ⟨t, ht⟩ := exec_next i s
      exact .inr (.inr ⟨i, t, hok, rfl, ht, by simp [hd, ht]⟩)

end Sys2Proof.Machine
end

