-- ==== Sys2Proof/Tests/Slice0.lean ====
section
/-!
SUPPORT. The model's own tests: the WellFormed smoke, decodings of words written out from 30_encoding.md R73 and R76, one
step per instruction with the values of 95_test_vectors.md (the vector named at each test), and for every obligation with
hypotheses a concrete case that meets them.
-/

namespace Sys2Proof.Tests

open Sys2Proof.Machine

/-! ## WellFormed (30_encoding.md R70): the one ill-formed term -/

theorem test_wellFormed_refuses_subn_without_parameter : (Instr.subn 0 1).wellFormed false = false := by decide
theorem test_wellFormed_takes_subn_with_parameter : (Instr.subn 0 1).wellFormed true = true := by decide

/-! ## Decoding: words of R76's patterns, written out by hand -/

theorem test_decode_control_flow :
    decodeWord false 0b0000000011100000#16 = some .cls ∧ decodeWord false 0b0000000011101110#16 = some .ret ∧
    decodeWord false 0b0001101010111100#16 = some (.jp 0xABC#12) ∧
    decodeWord false 0b0010001100000001#16 = some (.call 0x301#12) ∧
    decodeWord false 0b1011010100100000#16 = some (.jpV0 0x520#12) := by decide

theorem test_decode_skips :
    decodeWord false 0b0011001101000010#16 = some (.seImm 3 0x42#8) ∧
    decodeWord false 0b0100111110000001#16 = some (.sneImm 15 0x81#8) ∧
    decodeWord false 0b0101000100100000#16 = some (.seReg 1 2) ∧
    decodeWord false 0b1001111000010000#16 = some (.sneReg 14 1) ∧
    decodeWord false 0b0101000100100001#16 = none ∧ decodeWord false 0b1001000100101000#16 = none := by decide

theorem test_decode_register_moves :
    decodeWord false 0b0110111110101011#16 = some (.ldImm 15 0xAB#8) ∧
    decodeWord false 0b0111001000000001#16 = some (.addImm 2 0x01#8) ∧
    decodeWord false 0b1000000000010000#16 = some (.ldReg 0 1) ∧
    decodeWord false 0b1000010001010001#16 = some (.orReg 4 5) ∧
    decodeWord false 0b1000010001010010#16 = some (.andReg 4 5) ∧
    decodeWord false 0b1000011001100011#16 = some (.xorReg 6 6) := by decide

theorem test_decode_register_arithmetic :
    decodeWord false 0b1000000011110100#16 = some (.addReg 0 15) ∧
    decodeWord false 0b1000111100010101#16 = some (.subReg 15 1) ∧
    decodeWord false 0b1000010001010110#16 = some (.shr 4 5) ∧
    decodeWord false 0b1000010001011110#16 = some (.shl 4 5) ∧
    decodeWord true 0b1000000000010111#16 = some (.subn 0 1) ∧
    decodeWord false 0b1000000000010111#16 = none ∧ decodeWord true 0b1000000100101000#16 = none := by decide

theorem test_decode_memory_and_index :
    decodeWord false 0b1010001011110000#16 = some (.ldI 0x2F0#12) ∧
    decodeWord false 0b1111010100011110#16 = some (.addI 5) ∧
    decodeWord false 0b1111001000101001#16 = some (.ldF 2) ∧
    decodeWord false 0b1111010100110011#16 = some (.ldB 5) ∧
    decodeWord false 0b1111001001010101#16 = some (.storeRegs 2) ∧
    decodeWord false 0b1111111101100101#16 = some (.loadRegs 15) := by decide

theorem test_decode_timers_random_draw :
    decodeWord false 0b1111001100000111#16 = some (.ldFromDt 3) ∧
    decodeWord false 0b1111000000010101#16 = some (.ldDt 0) ∧
    decodeWord false 0b1111000100011000#16 = some (.ldSt 1) ∧
    decodeWord false 0b1100001100001111#16 = some (.rnd 3 0x0F#8) ∧
    decodeWord false 0b1101111100010101#16 = some (.drw 15 1 5#4) := by decide

theorem test_decode_key_input :
    decodeWord false 0b1110000110011110#16 = some (.skp 1) ∧
    decodeWord false 0b1110000110100001#16 = some (.sknp 1) ∧
    decodeWord false 0b1111001100001010#16 = some (.ldKey 3) ∧
    decodeWord false 0b1110000110100010#16 = none ∧ decodeWord false 0b1111000111111111#16 = none := by decide

theorem test_decode_bytes_high_byte_first :
    decode false [0x60#8, 0x05#8, 0x77#8] = .ok (.ldImm 0 0x05#8, [0x77#8]) ∧
    decode false [0x01#8, 0x23#8] = .error (.unknownWord 0x0123#16) ∧
    decode false [0x60#8] = .error (.fewerThanTwoBytes [0x60#8]) := by decide

/-! ## One step on a small state -/

/-- The state after reset with a word at 0x200, the conventions of 95_test_vectors.md. -/
def withWord (w : Nat) : State := State.reset.withFetchWord 16 w

/-- What a test looks at in the state the step leaves. -/
def after (α : Type) (look : State → α) (s : State) : Option α := (nextState (step s)).map look

/-- The state with a parameter set changed. -/
def withParams (change : Params → Params) (s : State) : State := { s with cfg := change s.cfg }

-- L2.2 #1
theorem test_cls : after _ (fun t => (t.fb, t.getV 15, t.pc))
    { (withWord 0x00E0).setV 15 0x55 with fb := (Framebuffer.clear.xorPixel 0 0 true).xorPixel 31 63 true } =
    some (Framebuffer.clear, 0x55, 0x202) := by decide

-- L2.2 #3, #2
theorem test_ret : after _ (fun t => (t.sp, t.pc))
    { withWord 0x00EE with sp := 2, stack := (Vector.replicate 16 0).set 1 0x456 } = some (1, 0x456) := by decide
theorem test_ret_underflow : after _ (fun t => (t.status, t.pc)) (withWord 0x00EE) =
    some (.faulted (.stackUnderflow 0x200 0x00EE), 0x200) := by decide

-- L2.2 #4, #5
theorem test_jp : after _ (fun t => t.pc) (withWord 0x1ABC) = some 0xABC := by decide
theorem test_jp_odd : after _ (fun t => t.pc) (withWord 0x1201) = some 0x201 := by decide

-- L2.2 #7, #8
theorem test_call : after _ (fun t => (t.stack[15], t.sp, t.pc)) { withWord 0x2300 with sp := 15 } =
    some (0x202, 16, 0x300) := by decide
theorem test_call_overflow : after _ (fun t => (t.status, t.sp, t.pc)) { withWord 0x2300 with sp := 16 } =
    some (.faulted (.stackOverflow 0x200 0x2300), 16, 0x200) := by decide

-- L2.2 #9, #10
theorem test_jpV0 : after _ (fun t => t.pc) (((withWord 0xB520).setV 0 0x02).setV 5 0x40) = some 0x522 := by decide
theorem test_jpV0_past_memory : after _ (fun t => t.pc) ((withWord 0xBFFF).setV 0 0xFF) = some 0x10FE := by decide

-- L2.3 #1, #2
theorem test_seImm : after _ (fun t => t.pc) ((withWord 0x3342).setV 3 0x42) = some 0x204 := by decide
theorem test_seImm_not : after _ (fun t => t.pc) ((withWord 0x3342).setV 3 0x41) = some 0x202 := by decide
-- L2.3 #3, #4
theorem test_sneImm : after _ (fun t => t.pc) ((withWord 0x4342).setV 3 0x42) = some 0x202 := by decide
theorem test_sneImm_not : after _ (fun t => t.pc) ((withWord 0x4342).setV 3 0x41) = some 0x204 := by decide
-- L2.3 #5, #6
theorem test_seReg : after _ (fun t => t.pc) (((withWord 0x5120).setV 1 7).setV 2 7) = some 0x204 := by decide
theorem test_seReg_same : after _ (fun t => t.pc) ((withWord 0x5110).setV 1 9) = some 0x204 := by decide
-- L2.3 #7, #8
theorem test_sneReg : after _ (fun t => t.pc) (((withWord 0x9120).setV 1 7).setV 2 8) = some 0x204 := by decide
theorem test_sneReg_same : after _ (fun t => t.pc) ((withWord 0x9110).setV 1 9) = some 0x202 := by decide

-- L2.4 #1 and L1-5
theorem test_ldImm_flag : after _ (fun t => t.getV 15) (withWord 0x6FAB) = some 0xAB := by decide
theorem test_ldImm : after _ (fun t => (t.getV 0, t.pc)) (withWord 0x6005) = some (0x05, 0x202) := by decide
-- L2.4 #2, #3
theorem test_addImm : after _ (fun t => (t.getV 2, t.getV 15)) (((withWord 0x7201).setV 2 0xFF).setV 15 0x07) =
    some (0x00, 0x07) := by decide
theorem test_addImm_flag : after _ (fun t => t.getV 15) ((withWord 0x7F03).setV 15 0xFE) = some 0x01 := by decide
-- L2.4 #4
theorem test_ldReg : after _ (fun t => t.getV 0) ((withWord 0x8010).setV 1 0x33) = some 0x33 := by decide
-- L2.4 #5, #6, #7, #8
theorem test_orReg : after _ (fun t => (t.getV 0, t.getV 15))
    ((((withWord 0x8011).setV 0 0x0F).setV 1 0xF0).setV 15 0x55) = some (0xFF, 0x55) := by decide
theorem test_andReg : after _ (fun t => (t.getV 0, t.getV 15))
    ((((withWord 0x8012).setV 0 0x3C).setV 1 0x0F).setV 15 0x55) = some (0x0C, 0x55) := by decide
theorem test_xorReg : after _ (fun t => t.getV 0) (((withWord 0x8013).setV 0 0xFF).setV 1 0x0F) = some 0xF0 := by
  decide
theorem test_xorReg_same : after _ (fun t => t.getV 6) ((withWord 0x8663).setV 6 0x5A) = some 0x00 := by decide
-- L2.4 #12, #14
theorem test_addReg_flag_operand : after _ (fun t => (t.getV 0, t.getV 15))
    (((withWord 0x80F4).setV 0 0x10).setV 15 0x01) = some (0x11, 0) := by decide
theorem test_addReg_result_last : after _ (fun t => t.getV 15)
    (withParams (fun p => { p with flagOrder := .resultLast }) (((withWord 0x8F14).setV 15 0xFF).setV 1 0x01)) =
    some 0x00 := by decide
-- L2.4 #15, #18
theorem test_subReg : after _ (fun t => (t.getV 0, t.getV 15)) (((withWord 0x8015).setV 0 0x05).setV 1 0x07) =
    some (0xFE, 0) := by decide
theorem test_subReg_flag_last : after _ (fun t => t.getV 15) (((withWord 0x8F15).setV 15 0x05).setV 1 0x07) =
    some 0x00 := by decide
-- L2.4 #20, #23
theorem test_shr : after _ (fun t => (t.getV 4, t.getV 15)) ((withWord 0x8406).setV 4 0x05) = some (0x02, 1) := by
  decide
theorem test_shr_vy : after _ (fun t => (t.getV 4, t.getV 15, t.getV 5))
    (withParams (fun p => { p with shiftSource := .vy }) (((withWord 0x8456).setV 4 0xFF).setV 5 0x02)) =
    some (0x01, 0, 0x02) := by decide
-- L2.4 #26, #28
theorem test_shl : after _ (fun t => (t.getV 4, t.getV 15)) ((withWord 0x840E).setV 4 0x81) = some (0x02, 1) := by
  decide
theorem test_shl_vy : after _ (fun t => (t.getV 4, t.getV 15))
    (withParams (fun p => { p with shiftSource := .vy }) ((withWord 0x845E).setV 5 0x81)) = some (0x02, 1) := by
  decide
-- L2.4 #31, #29
theorem test_subn : after _ (fun t => (t.getV 0, t.getV 15)) (((withWord 0x8017).setV 0 0x07).setV 1 0x05) =
    some (0xFE, 0) := by decide
theorem test_subn_absent : after _ (fun t => t.status)
    (withParams (fun p => { p with hasSubn := false }) (((withWord 0x8017).setV 0 0x05).setV 1 0x07)) =
    some (.faulted (.unknownInstruction 0x200 0x8017)) := by decide

-- L2.5 #1, #4, #3
theorem test_ldI : after _ (fun t => t.i) (withWord 0xA2F0) = some 0x2F0 := by decide
theorem test_addI_wraps : after _ (fun t => t.i) ({ withWord 0xF01E with i := 0xFFFF }.setV 0 0x02) = some 0x0001 := by
  decide
theorem test_addI_past_memory : after _ (fun t => (t.i, t.getV 15)) ({ withWord 0xF01E with i := 0xFFF }.setV 0 0x01) =
    some (0x1000, 0) := by decide
-- L2.5 #6, #8
theorem test_ldF : after _ (fun t => t.i) ((withWord 0xF029).setV 0 0x0F) = some 0x04B := by decide
theorem test_ldF_no_mask : after _ (fun t => t.i) ((withWord 0xF029).setV 0 0xFF) = some 0x4FB := by decide
-- L2.5 #12, #13
theorem test_ldB_at_top : after _ (fun t => t.mem.readBytes 0xFFD 3) ({ withWord 0xF133 with i := 0xFFD }.setV 1 123) =
    some [0x01, 0x02, 0x03] := by decide
theorem test_ldB_past_top : after _ (fun t => (t.status, t.mem.readBytes 0xFFE 2))
    ({ withWord 0xF133 with i := 0xFFE }.setV 1 123) =
    some (.faulted (.outOfBoundsAddress 0x200 (some 0xF133) 0x1000), [0, 0]) := by decide
-- R175's example; L2.5 #16
theorem test_storeRegs : after _ (fun t => (t.mem.readBytes 0x300 3, t.i))
    ({ ((withWord 0xF255).setV 0 1).setV 1 2 with i := 0x300 }.setV 2 3) = some ([1, 2, 3], 0x303) := by decide
theorem test_storeRegs_past_top : after _ (fun t => (t.status, t.i)) { withWord 0xFF55 with i := 0xFF1 } =
    some (.faulted (.outOfBoundsAddress 0x200 (some 0xFF55) 0x1000), 0xFF1) := by decide
-- L2.5 #18
theorem test_loadRegs : after _ (fun t => (t.getV 0, t.getV 1, t.getV 2, t.getV 3, t.i))
    ({ withWord 0xF265 with i := 0x300, mem := (withWord 0xF265).mem.writeBytes 0x300 [1, 2, 3, 4] }.setV 3 9) =
    some (1, 2, 3, 9, 0x303) := by decide

-- L2.6 #3, #1, #2, #5
theorem test_ldFromDt : after _ (fun t => (t.getV 3, t.dt)) { withWord 0xF307 with dt := 0x3C } = some (0x3C, 0x3B) := by
  decide
theorem test_ldDt : after _ (fun t => t.dt) ((withWord 0xF015).setV 0 5) = some 4 := by decide
theorem test_ldDt_external : after _ (fun t => t.dt)
    (withParams (fun p => { p with timerPolicy := .externalTick }) ((withWord 0xF015).setV 0 5)) = some 5 := by
  decide
theorem test_ldSt : after _ (fun t => t.st) ((withWord 0xF118).setV 1 1) = some 0 := by decide

-- L2.7 #2, for any draw
theorem test_rnd_zero_mask (s : State) : ∃ t, exec (.rnd 0 0#8) s = .next t ∧ t.getV 0 = 0 :=
  ⟨_, rfl, by simp [State.getV, State.setV, State.advance]⟩

/-- A state of L2.8: the word, I = 0x300 and the sprite's bytes there. -/
def withSprite (w : Nat) (bytes : List Byte) : State :=
  { withWord w with i := 0x300, mem := (withWord w).mem.writeBytes 0x300 bytes }

/-- The pixels that are 1 in a framebuffer's row. -/
def litColumns (fb : Framebuffer) (y : Fin 32) : List (Fin 64) := (List.finRange 64).filter fun x => fb.pixel y x

-- L2.8 #1 (L1-4), #6
theorem test_drw_wraps : after _ (fun t => (litColumns t.fb 0, t.getV 15)) ((withSprite 0xD011 [0xFF]).setV 0 60) =
    some ([0, 1, 2, 3, 60, 61, 62, 63], 0) := by decide
theorem test_drw_collides : after _ (fun t => (litColumns t.fb 0, t.getV 15))
    { withSprite 0xD011 [0xC0] with fb := Framebuffer.clear.xorPixel 0 0 true } = some ([1], 1) := by decide

-- L2.9 #1, #5
theorem test_skp : after _ (fun t => t.pc) { (withWord 0xE19E).setV 1 5 with keys := 0x0020 } = some 0x204 := by
  decide
theorem test_skp_invalid : after _ (fun t => t.status) ((withWord 0xE19E).setV 1 0x10) =
    some (.faulted (.invalidKeyIndex 0x200 0xE19E 0x10)) := by decide
-- L2.9 #3, #4
theorem test_sknp : after _ (fun t => t.pc) ((withWord 0xE1A1).setV 1 5) = some 0x204 := by decide
theorem test_sknp_pressed : after _ (fun t => t.pc) { (withWord 0xE1A1).setV 1 5 with keys := 0x0020 } = some 0x202 := by
  decide
-- L2.9 #7 step 1 (the word at 0x200), #6 step 2
theorem test_ldKey_suspends : after _ (fun t => (t.status, t.pc)) { withWord 0xF30A with keys := 0x0008 } =
    some (.awaitingKey 3 0x0008, 0x200) := by decide

/-- The state after step 1 of L2.9 #6, with key 3 pressed since. -/
def awaitingThree : State := { State.reset with pc := 0x240, status := .awaitingKey 3 0x0000, keys := 0x0008 }

theorem test_ldKey_resumes : after _ (fun t => (t.status, t.pc)) awaitingThree = some (.running, 0x242) := by
  decide

-- L2.1 #1, #5, #6, #12
theorem test_fetch_last_word : after _ (fun t => (t.getV 0, t.pc))
    { State.reset with pc := 0xFFE, mem := [(0xFFE, 0x60), (0xFFF, 0x01)] } = some (1, 0x1000) := by decide
theorem test_fetch_odd_out_of_range : after _ (fun t => t.status)
    (withParams (fun p => { p with oddPcPolicy := .fetch }) { State.reset with pc := 0xFFF }) =
    some (.faulted (.outOfBoundsAddress 0xFFF none 0x1000)) := by decide
theorem test_fetch_alignment_first : after _ (fun t => t.status) { State.reset with pc := 0xFFF } =
    some (.faulted (.misalignedFetch 0xFFF)) := by decide
theorem test_step_faulted : nextState (step { State.reset with status := .faulted (.misalignedFetch 0xFFF) }) = none := by
  decide

/-! ## The host's operations -/

-- L2.10 #2
theorem test_load_keeps_the_rest :
    (match load [0xAA, 0xBB] { State.reset with mem := State.reset.mem.writeBytes 0x200 [0x11, 0x22, 0x33, 0x44] } with
      | .ok t => t.mem.readBytes 0x200 4
      | .imageTooLarge => []) = [0xAA, 0xBB, 0x33, 0x44] := by decide

-- L2.10 #3
theorem test_reset_restores_glyphs :
    let t := resetMachine { State.reset.setV 0 9 with
      mem := (State.reset.mem.write 0x000 0x00).write 0x050 0x77, pc := 0x345
      status := .faulted (.stackOverflow 0x345 0x2300) }
    (t.mem.read 0x000, t.mem.read 0x050, t.getV 0, t.pc, t.status) = (0xF0, 0x77, 0, 0x200, .running) := by decide +kernel

/-! ## Witnesses: what the hypotheses of the obligations ask for is met -/

/-- DecodeOfEncodeGivesInstruction, DecodeOfEncodedBytesLeavesTheRest. -/
theorem witness_DecodeOfEncode : (Instr.drw 15 0 15#4).wellFormed false = true ∧ (Instr.subn 0 1).wellFormed true = true := by
  decide

/-- EncodeOfDecodeGivesWord, DecoderAgreesWithOpcodeTable. -/
theorem witness_EncodeOfDecode : decodeWord false 0x00EE#16 = some .ret ∧ decodeWord true 0x8017#16 = some (.subn 0 1) := by
  decide

/-- A running state at a fetchable pc. -/
theorem fetchable_of {s : State} (h : ¬ (s.pc.toNat % 2 = 1 ∧ s.cfg.oddPcPolicy = .fault) ∧ s.pc.toNat + 2 ≤ memSize) :
    Fetchable s := (fetchable_iff s).mpr h

/-- The parameters that are not the defaults. -/
def otherParams (p : Params) : Params :=
  { p with
    oddPcPolicy := .fetch
    hasSubn := true
    shiftSource := .vy
    flagOrder := .resultLast
    timerPolicy := .externalTick
    keyWaitTrigger := .level
    drawH0 := .fault }

theorem witness_StepRuns_tick : (withWord 0x6005).status = .running ∧ Fetchable (withWord 0x6005) ∧
    decodeWord (withWord 0x6005).cfg.hasSubn (wordAtPc (withWord 0x6005)) = some (.ldImm 0 0x05#8) ∧
    (∃ t, exec (.ldImm 0 0x05#8) (withWord 0x6005) = .next t ∧ t.status = .running) ∧
    (withWord 0x6005).cfg.timerPolicy = .perStep :=
  ⟨rfl, fetchable_of (by decide), by decide, ⟨_, rfl, by decide⟩, by decide⟩

theorem witness_StepRuns_external : (withParams otherParams (withWord 0x6005)).status = .running ∧
    Fetchable (withParams otherParams (withWord 0x6005)) ∧
    decodeWord (withParams otherParams (withWord 0x6005)).cfg.hasSubn
      (wordAtPc (withParams otherParams (withWord 0x6005))) = some (.ldImm 0 0x05#8) ∧
    (∃ t, exec (.ldImm 0 0x05#8) (withParams otherParams (withWord 0x6005)) = .next t ∧ t.status = .running) ∧
    (withParams otherParams (withWord 0x6005)).cfg.timerPolicy = .externalTick :=
  ⟨rfl, fetchable_of (by decide), by decide, ⟨_, rfl, by decide⟩, by decide⟩

theorem witness_StepRuns_fault : (withWord 0x00EE).status = .running ∧ Fetchable (withWord 0x00EE) ∧
    decodeWord (withWord 0x00EE).cfg.hasSubn (wordAtPc (withWord 0x00EE)) = some .ret ∧
    (∃ t, exec .ret (withWord 0x00EE) = .next t ∧ t.status = .faulted (.stackUnderflow 0x200 0x00EE)) :=
  ⟨rfl, fetchable_of (by decide), by decide, ⟨_, rfl, by decide⟩⟩

theorem witness_PlacedWord : Fetchable State.reset ∧ Fetchable { State.reset with pc := 0xFFE } :=
  ⟨fetchable_of (by decide), fetchable_of (by decide)⟩

theorem witness_FetchAndDecodeFaults :
    (State.reset.status = .running) ∧
    (({ State.reset with pc := 0xFFF } : State).pc.toNat % 2 = 1 ∧ State.reset.cfg.oddPcPolicy = .fault) ∧
    (∃ s : State, s.status = .running ∧ s.pc = 0x1000 ∧ ¬ InMemory s.pc 2) ∧
    (∃ s : State, s.status = .running ∧ s.pc = 0xFFF ∧ s.cfg.oddPcPolicy = .fetch ∧ ¬ InMemory s.pc 2) ∧
    (Fetchable (withWord 0xFFFF) ∧
      decodeWord (withWord 0xFFFF).cfg.hasSubn (wordAtPc (withWord 0xFFFF)) = none) :=
  ⟨rfl, by decide, ⟨{ State.reset with pc := 0x1000 }, rfl, rfl, by unfold InMemory; decide⟩,
    ⟨withParams otherParams { State.reset with pc := 0xFFF }, rfl, rfl, rfl, by unfold InMemory; decide⟩,
    fetchable_of (by decide), by decide⟩

/-- FaultingStepChangesOnlyStatus and FaultRecordNamesTheInstruction: a fault of each kind is raised by some step. -/
theorem witness_FaultingStep :
    (∃ t, step (withWord 0xFFFF) = .next t ∧ t.status = .faulted (.unknownInstruction 0x200 0xFFFF)) ∧
    (∃ t, step (withWord 0x00EE) = .next t ∧ t.status = .faulted (.stackUnderflow 0x200 0x00EE)) ∧
    (∃ t, step { withWord 0x2300 with sp := 16 } = .next t ∧ t.status = .faulted (.stackOverflow 0x200 0x2300)) ∧
    (∃ t, step { State.reset with pc := 0x1000 } = .next t ∧
      t.status = .faulted (.outOfBoundsAddress 0x1000 none 0x1000)) ∧
    (∃ t, step { State.reset with pc := 0x201 } = .next t ∧ t.status = .faulted (.misalignedFetch 0x201)) ∧
    (∃ t, step ((withWord 0xE19E).setV 1 0x10) = .next t ∧
      t.status = .faulted (.invalidKeyIndex 0x200 0xE19E 0x10)) := by
  refine ⟨⟨_, rfl, ?_⟩, ⟨_, rfl, ?_⟩, ⟨_, rfl, ?_⟩, ⟨_, rfl, ?_⟩, ⟨_, rfl, ?_⟩, ⟨_, rfl, ?_⟩⟩ <;> decide

theorem witness_StepAnswersFault :
    (∃ s : State, ∃ f, s.status = .faulted f) ∧ (∀ f, State.reset.status ≠ .faulted f) :=
  ⟨⟨{ State.reset with status := .faulted (.misalignedFetch 1) }, _, rfl⟩, fun _ h => by cases h⟩

/-- PcAfterInstruction and WritersOfEachPart hold of every instruction that answers a next state, and each does. -/
theorem witness_PcAfter_Writers (i : Instr) : ∃ t, exec i State.reset = .next t := exec_next i State.reset

theorem witness_Writers_change :
    (∃ t, exec (.ldI 5#12) State.reset = .next t ∧ t.i ≠ State.reset.i) ∧
    (∃ t, exec (.call 0#12) State.reset = .next t ∧ t.sp ≠ State.reset.sp) ∧
    (∃ t, exec (.ldDt 0) (State.reset.setV 0 1) = .next t ∧ t.dt ≠ State.reset.dt) ∧
    (∃ t, exec (.ldSt 0) (State.reset.setV 0 1) = .next t ∧ t.st ≠ State.reset.st) ∧
    (∃ t, exec (.drw 0 0 1#4) State.reset = .next t ∧ t.fb ≠ State.reset.fb) ∧
    (∃ t, exec (.ldB 0) State.reset = .next t ∧ t.mem ≠ State.reset.mem) ∧
    (∃ t, exec (.rnd 0 0#8) State.reset = .next t ∧ t.draws ≠ State.reset.draws) ∧
    (∃ t, exec (.ldKey 0) State.reset = .next t ∧ t.status ≠ State.reset.status) := by
  refine ⟨⟨_, rfl, ?_⟩, ⟨_, rfl, ?_⟩, ⟨_, rfl, ?_⟩, ⟨_, rfl, ?_⟩, ⟨_, rfl, ?_⟩, ⟨_, rfl, ?_⟩, ⟨_, rfl, ?_⟩, ⟨_, rfl, ?_⟩⟩
  all_goals decide

theorem witness_FlagWriters :
    (∃ t, exec (.addReg 0 1) ((State.reset.setV 0 0xFF).setV 1 1) = .next t ∧ t.getV 15 ≠ State.reset.getV 15) ∧
    (∃ t, exec (.ldImm 15 1#8) State.reset = .next t ∧ t.getV 15 ≠ State.reset.getV 15) := by
  refine ⟨⟨_, rfl, ?_⟩, ⟨_, rfl, ?_⟩⟩ <;> decide

theorem witness_RetPops : ({ State.reset with sp := 1 } : State).sp.val ≠ 0 ∧ ({ State.reset with sp := 16 } : State).sp.val ≠ 0 ∧
    State.reset.sp.val = 0 := by decide

theorem witness_CallPushes : ({ State.reset with sp := 15 } : State).sp.val ≠ 16 ∧
    ({ State.reset with sp := 16 } : State).sp.val = 16 := by decide

theorem witness_RetAfterCall : ∃ t, ({ State.reset with sp := 15 } : State).sp.val ≠ 16 ∧
    exec (.call 0x300#12) { State.reset with sp := 15 } = .next t ∧ t.sp = t.sp ∧ t.stack = t.stack :=
  ⟨_, by decide, rfl, rfl, rfl⟩

theorem witness_SelfJump : (withWord 0x1200).status = .running ∧ Fetchable (withWord 0x1200) ∧
    wordAtPc (withWord 0x1200) = formatA 0x1#4 0x200#12 ∧ (withWord 0x1200).pc.toNat = (0x200#12).toNat ∧
    (withParams otherParams (withWord 0x1200)).cfg.timerPolicy = .externalTick :=
  ⟨rfl, fetchable_of (by decide), by decide, by decide, by decide⟩

/-- ImmediateSkips and RegisterSkips: the condition holds somewhere, and does not somewhere. -/
theorem witness_Skips : State.reset.getV 3 = 0#8 ∧ State.reset.getV 3 ≠ 0x42#8 ∧ State.reset.getV 0 = State.reset.getV 1 ∧
    (State.reset.setV 0 1).getV 0 ≠ (State.reset.setV 0 1).getV 1 := by decide

/-- The clauses of ResultAndFlag: a destination other than VF, and VF under each order. -/
theorem witness_ResultAndFlag : ((0 : Reg) ≠ 15) ∧ State.reset.cfg.flagOrder = .flagLast ∧
    (withParams otherParams State.reset).cfg.flagOrder = .resultLast := by decide

theorem witness_SubnAbsent :
    let s := withParams (fun p => { p with hasSubn := false }) (withWord 0x8017)
    s.status = .running ∧ Fetchable s ∧ wordAtPc s = formatXY 0x8#4 0 1 0x7#4 ∧ s.cfg.hasSubn = false :=
  ⟨rfl, fetchable_of (by decide), by decide, by decide⟩

theorem witness_Shifts : State.reset.cfg.shiftSource = .vx ∧ (0 : Byte) = State.reset.getV 4 ∧
    (withParams otherParams State.reset).cfg.shiftSource = .vy ∧ (0 : Byte) = (withParams otherParams State.reset).getV 5 := by
  decide

/-- BcdStoresDecimalDigits: the last I inside, and the first outside. -/
theorem witness_Bcd : InMemory 0xFFD 3 ∧ ¬ InMemory 0xFFE 3 := by unfold InMemory; decide

/-- BulkStoreWritesRegisters and BulkLoadReadsRegisters: the last I inside for one and for 16 registers, and the first
outside. -/
theorem witness_Bulk : InMemory 0xFFF ((0 : Reg).val + 1) ∧ ¬ InMemory 0x1000 ((0 : Reg).val + 1) ∧
    InMemory 0xFF0 ((15 : Reg).val + 1) ∧ ¬ InMemory 0xFF1 ((15 : Reg).val + 1) := by unfold InMemory; decide

theorem witness_StoredBytes : ∃ s t u : State, InMemory s.i ((1 : Reg).val + 1) ∧ exec (.storeRegs 1) s = .next t ∧
    u.mem = t.mem ∧ (1 : Reg).val = (0 : Reg).val + 1 ∧ (1 : Reg).val ≤ (1 : Reg).val ∧
    u.pc.toNat = s.i.toNat + (0 : Reg).val ∧ Fetchable u := by
  obtain ⟨t, ht⟩ := exec_next (.storeRegs 1) { State.reset with i := 0x202 }
  exact ⟨_, t, { State.reset with mem := t.mem, pc := 0x202 }, by unfold InMemory; decide, ht, rfl, rfl, Nat.le_refl _, rfl,
    fetchable_of (s := { State.reset with mem := t.mem, pc := 0x202 }) (by simp only; decide)⟩

theorem witness_ExternalTick :
    let s := withParams otherParams ((withWord 0xF015).setV 0 5)
    s.cfg.timerPolicy = .externalTick ∧ ∃ t, step s = .next t ∧ t.dt ≠ s.dt := by
  refine ⟨by decide, _, rfl, ?_⟩
  decide

theorem witness_ExternalTick_sound :
    let s := withParams otherParams ((withWord 0xF018).setV 0 5)
    s.cfg.timerPolicy = .externalTick ∧ ∃ t, step s = .next t ∧ t.st ≠ s.st := by
  refine ⟨by decide, _, rfl, ?_⟩
  decide

/-- DrawXorsSprite, CollisionFlagIsAggregate: heights 0 and 15 that run, and the last I a sprite of 3 rows may start at. -/
theorem witness_DrawRuns : DrawRuns 0#4 State.reset ∧ DrawRuns 15#4 State.reset ∧
    DrawRuns 3#4 { State.reset with i := 0xFFD } ∧ DrawRuns 15#4 (withParams otherParams State.reset) := by
  unfold DrawRuns InMemory; decide

/-- Glyph 0 over a set pixel collides, and over a clear framebuffer does not. -/
theorem witness_DrawCollides :
    (∃ r c, (Framebuffer.clear.xorPixel 0 0 true).pixel r c = true ∧
      SpriteCovers { State.reset with fb := Framebuffer.clear.xorPixel 0 0 true } 0 0 1 r c) ∧
    ¬ (∃ r c, State.reset.fb.pixel r c = true ∧ SpriteCovers State.reset 0 0 1 r c) := by
  refine ⟨⟨0, 0, by decide, 0, by decide, 0, by decide, by decide, by decide, by decide⟩, ?_⟩
  rintro ⟨r, c, h, -⟩
  exact absurd ((Framebuffer.pixel_clear r c).symm.trans h) (by decide)

theorem witness_DrawFaults : (withParams otherParams State.reset).cfg.drawH0 = .fault ∧ (3#4 : Nibble) ≠ 0 ∧
    ¬ InMemory 0xFFE (3#4).toNat := by unfold InMemory; decide

/-- DrawingTwiceRestores: a first draw that sets a pixel, and one that only clears. -/
theorem witness_DrawingTwice :
    DrawRuns 1#4 State.reset ∧
    (∃ t, exec (.drw 0 0 1#4) State.reset = .next t ∧ State.reset.fb.pixel 0 0 = false ∧ t.fb.pixel 0 0 = true) ∧
    (∃ t, exec (.drw 0 1 0#4) State.reset = .next t ∧
      ∀ r c, t.fb.pixel r c = true → State.reset.fb.pixel r c = true) := by
  refine ⟨by unfold DrawRuns InMemory; decide, ⟨_, rfl, by decide, by decide⟩, ⟨_, rfl, fun _ _ h => h⟩⟩

/-- Log entry 20: the sprite byte 0x80 over the one set pixel (0, 0): the first draw clears it, VF = 1, and the second sets
it again, VF = 0. -/
theorem witness_DrawingTwice_over_set_pixel :
    let s := { withSprite 0xD011 [0x80] with fb := Framebuffer.clear.xorPixel 0 0 true }
    ∃ t w, exec (.drw 0 1 1#4) s = .next t ∧ t.fb = Framebuffer.clear ∧ t.getV 15 = 1 ∧
      exec (.drw 0 1 1#4) t = .next w ∧ w.fb = s.fb ∧ w.getV 15 = 0 := by
  refine ⟨_, _, rfl, ?_, ?_, rfl, ?_, ?_⟩ <;> decide

theorem witness_KeySkips : ((State.reset.setV 1 15).getV 1).toNat = (15 : Reg).val ∧
    15 < ((State.reset.setV 1 16).getV 1).toNat ∧ (0x8000#16).getLsbD (15 : Reg).val = true ∧
    (0x7FFF#16).getLsbD (15 : Reg).val = false := by decide

theorem witness_WaitForKey : State.reset.cfg.keyWaitTrigger = .edge ∧
    (withParams otherParams State.reset).cfg.keyWaitTrigger = .level ∧ (withParams otherParams State.reset).keys = 0 ∧
    (withParams otherParams { State.reset with keys := 0x8000 }).keys ≠ 0 := by decide

theorem witness_WaitStep : awaitingThree.status = .awaitingKey 3 0x0000 ∧ awaitingThree.keys.getLsbD (3 : Reg).val = true ∧
    (0x0000#16).getLsbD (3 : Reg).val = false ∧ awaitingThree.cfg.timerPolicy = .perStep ∧
    (withParams otherParams awaitingThree).cfg.timerPolicy = .externalTick := by decide

theorem witness_WaitStep_suspends : ∃ s : State, s.status = .awaitingKey 3 0x0008 ∧ s.keys = 0x0008 ∧
    s.cfg.keyWaitTrigger = .edge ∧ (withParams otherParams s).cfg.keyWaitTrigger = .level ∧
    ∀ k : Reg, s.keys.getLsbD k.val = true → (0x0008#16).getLsbD k.val = true :=
  ⟨{ State.reset with status := .awaitingKey 3 0x0008, keys := 0x0008 }, rfl, rfl, by decide, by decide, fun _ h => h⟩

theorem witness_EveryNewKey : newKeys 0x0204 0x0000 = 2 :: [9] ∧ (0x0204#16).getLsbD (9 : Reg).val = true ∧
    (0x0000#16).getLsbD (9 : Reg).val = false := by decide

theorem witness_WaitWithoutPress : ∃ s : State, s.status = .awaitingKey 3 0x0000 ∧
    ∀ k : Reg, s.keys.getLsbD k.val = true → (0x0000#16).getLsbD k.val = true :=
  ⟨{ State.reset with status := .awaitingKey 3 0x0000 }, rfl, by decide⟩

theorem witness_ResetIsIdempotent : State.reset.mem.wf ∧ (State.created defaultParams).mem.wf :=
  ⟨reset_memory_wf, created_memory_wf _⟩

theorem witness_LoadChecks : 3584 < (List.replicate 3585 (0 : Byte)).length ∧ (List.replicate 3584 (0 : Byte)).length ≤ 3584 ∧
    ([] : List Byte).length ≤ 3584 := by
  rw [List.length_replicate, List.length_replicate]
  decide

theorem witness_ResetAndLoad : ∃ t, State.reset.mem.wf ∧ load [0x60, 0x05] State.reset = .ok t :=
  ⟨_, reset_memory_wf, rfl⟩

theorem witness_TickSixty : State.reset.cfg.timerPolicy = .perStep ∧
    (withParams otherParams State.reset).cfg.timerPolicy = .externalTick := by decide

/-- StepKeepsInvariant, HostOperationsKeepInvariant. -/
theorem witness_Invariant : Invariant { State.reset with pc := 0x10FE } ∧
    ∃ t, step { State.reset with pc := 0x10FE } = .next t :=
  ⟨⟨reset_memory_wf, by decide, by simp [State.reset], by simp [State.reset], by simp [State.reset], by simp [State.reset],
    by simp [State.reset]⟩, _, rfl⟩

theorem witness_Reachable : Reachable (boot defaultParams) := ⟨defaultParams, [], rfl⟩

theorem witness_DifferInSound : DifferInSound State.reset { State.reset with st := 9 } := rfl

theorem witness_DifferInDeadSlots :
    DifferInDeadSlots { State.reset with sp := 1 } { State.reset with sp := 1, stack := (Vector.replicate 16 0).set 1 7 } :=
  ⟨rfl, fun j h => by
    have hj : j < 1 := h
    have h0 : j = 0 := by omega
    subst h0; rfl⟩

end Sys2Proof.Tests
end

section
/-!
PROOFS. Load (20_memory.md R64, R65): its two outcomes, and the frame of an update of memory alone.
-/

namespace Sys2Proof.Machine

/-- A new memory leaves every other part of the state as it was. -/
theorem unchanged_with_mem (s : State) (m : Memory) : Unchanged [.mem] s { s with mem := m } := by
  intro p hp
  cases p with
  | mem => exact absurd (List.mem_singleton_self _) hp
  | regs | stack => exact fun _ => rfl
  | fb => exact fun _ _ => rfl
  | index | pc | sp | dt | st | keys | status | params | draws => rfl

theorem load_of_maxImage_lt {image : List Byte} (h : maxImage < image.length) (s : State) :
    load image s = .imageTooLarge := if_pos h

theorem load_of_length_le {image : List Byte} (h : image.length ≤ maxImage) (s : State) :
    load image s = .ok { s with mem := s.mem.writeBytes progStart image } := if_neg (Nat.not_lt.mpr h)

/-- Settles O52: the two outcomes of the bounds check; the copy is one block write, so its bytes and its frame are the
block write's. -/
theorem loadChecksAndCopies : Obligations.LoadChecksAndCopies := by
  intro image s
  refine ⟨fun hlong => load_of_maxImage_lt hlong s, fun hfits => ⟨_, load_of_length_le hfits s, ?_, ?_, ?_⟩⟩
  · exact fun k hk => Memory.read_writeBytes_of_lt hk
  · exact fun b hb => Memory.read_writeBytes_outside hb
  · exact unchanged_with_mem s _

end Sys2Proof.Machine
end

section
/-!
PROOFS. CLS (40_control_flow.md R100): the frames of an advance of pc and of an update of the framebuffer alone.
-/

namespace Sys2Proof.Machine

/-- The advance of pc adds pc, and nothing else, to what an update changes. -/
theorem Unchanged.advance {except : List Part} {s t : State} (h : Unchanged except s t) :
    Unchanged (except ++ [.pc]) s t.advance := by
  intro p hp
  obtain ⟨hother, hpc⟩ : p ∉ except ∧ p ≠ .pc := by simpa using hp
  have hsame : Part.same s t p := h p hother
  cases p with
  | pc => exact absurd rfl hpc
  | regs | index | sp | stack | dt | st | fb | keys | mem | status | params | draws => exact hsame

/-- A new framebuffer leaves every other part of the state as it was. -/
theorem unchanged_with_fb (s : State) (f : Framebuffer) : Unchanged [.fb] s { s with fb := f } := by
  intro p hp
  cases p with
  | fb => exact absurd (List.mem_singleton_self _) hp
  | regs | stack | mem => exact fun _ => rfl
  | index | pc | sp | dt | st | keys | status | params | draws => rfl

theorem decodeWord_cls (hasSubn : Bool) : decodeWord hasSubn 0x00E0#16 = some .cls := rfl

theorem exec_cls (s : State) : exec .cls s = .next { s with fb := Framebuffer.clear }.advance := rfl

/-- Settles O16: CLS is an update of the framebuffer alone followed by the advance of pc, so its frame is theirs. -/
theorem clsClearsFramebuffer : Obligations.ClsClearsFramebuffer := by
  intro s
  refine ⟨decodeWord_cls _, _, exec_cls s, fun y x => ?_, State.advance_pc _, ?_⟩
  · exact Framebuffer.pixel_clear y x
  · exact (unchanged_with_fb s Framebuffer.clear).advance

end Sys2Proof.Machine
end

section
/-!
PROOFS. Skips (41_skips.md R120 to R123): the frame of an update of pc alone, and what every skip does by its condition.
-/

namespace Sys2Proof.Machine

/-- A new pc leaves every other part of the state as it was. -/
theorem unchanged_with_pc (s : State) (a : Word) : Unchanged [.pc] s { s with pc := a } := by
  intro p hp
  cases p with
  | pc => exact absurd (List.mem_singleton_self _) hp
  | regs | stack | mem => exact fun _ => rfl
  | fb => exact fun _ _ => rfl
  | index | sp | dt | st | keys | status | params | draws => rfl

/-! ## The words of the skips (R77) -/

theorem decodeWord_seImm (hasSubn : Bool) (x : Reg) (nn : Byte) :
    decodeWord hasSubn (formatXK 0x3#4 x nn) = some (.seImm x nn) := by simp [decodeWord]

theorem decodeWord_sneImm (hasSubn : Bool) (x : Reg) (nn : Byte) :
    decodeWord hasSubn (formatXK 0x4#4 x nn) = some (.sneImm x nn) := by simp [decodeWord]

theorem decodeWord_seReg (hasSubn : Bool) (x y : Reg) (n : Nibble) :
    decodeWord hasSubn (formatXY 0x5#4 x y n) = if n = 0 then some (.seReg x y) else none := by simp [decodeWord]

theorem decodeWord_sneReg (hasSubn : Bool) (x y : Reg) (n : Nibble) :
    decodeWord hasSubn (formatXY 0x9#4 x y n) = if n = 0 then some (.sneReg x y) else none := by simp [decodeWord]

/-! ## The effect of the skips (R25 b) -/

theorem exec_seImm (x : Reg) (nn : Byte) (s : State) :
    exec (.seImm x nn) s = .next (s.skipIf (s.getV x == nn)) := rfl

theorem exec_sneImm (x : Reg) (nn : Byte) (s : State) :
    exec (.sneImm x nn) s = .next (s.skipIf (s.getV x != nn)) := rfl

theorem exec_seReg (x y : Reg) (s : State) :
    exec (.seReg x y) s = .next (s.skipIf (s.getV x == s.getV y)) := rfl

theorem exec_sneReg (x y : Reg) (s : State) :
    exec (.sneReg x y) s = .next (s.skipIf (s.getV x != s.getV y)) := rfl

/-- An instruction that answers `s.skipIf c` writes pc alone: `pc + 4` where `c` is true, `pc + 2` where it is false. -/
theorem skip_of_exec_eq_skipIf {i : Instr} {s : State} {c : Bool} {taken untaken : Prop}
    (hexec : exec i s = .next (s.skipIf c)) (htaken : taken → c = true) (huntaken : untaken → c = false) :
    ∃ t, exec i s = .next t ∧ Unchanged [.pc] s t ∧ (taken → t.pc = s.pc + 4) ∧ (untaken → t.pc = s.pc + 2) := by
  refine ⟨_, hexec, unchanged_with_pc s _, fun h => ?_, fun h => ?_⟩
  · rw [State.skipIf_pc, htaken h, if_pos rfl]
  · rw [State.skipIf_pc, huntaken h, if_neg Bool.false_ne_true]

/-- Settles O22: both are a skip by the comparison of VX with NN. -/
theorem immediateSkips : Obligations.ImmediateSkips := by
  intro x nn s
  refine ⟨decodeWord_seImm _ x nn, decodeWord_sneImm _ x nn, ?_, ?_⟩
  · exact skip_of_exec_eq_skipIf (exec_seImm x nn s) beq_iff_eq.mpr beq_eq_false_iff_ne.mpr
  · exact skip_of_exec_eq_skipIf (exec_sneImm x nn s) bne_iff_ne.mpr bne_eq_false_iff_eq.mpr

/-- Settles O23: both are a skip by the comparison of VX with VY. -/
theorem registerSkips : Obligations.RegisterSkips := by
  intro x y s
  refine ⟨decodeWord_seReg _ x y, decodeWord_sneReg _ x y, ?_, ?_⟩
  · exact skip_of_exec_eq_skipIf (exec_seReg x y s) beq_iff_eq.mpr beq_eq_false_iff_ne.mpr
  · exact skip_of_exec_eq_skipIf (exec_sneReg x y s) bne_iff_ne.mpr bne_eq_false_iff_eq.mpr

end Sys2Proof.Machine
end

section
/-!
PROOFS. Register operations (42_register_ops.md R140 to R142, R147 to R149): the frame of an update of the registers alone,
what every instruction does that writes one register, and every one that writes a result with its flag.
-/

namespace Sys2Proof.Machine

/-! ## Updates of the registers -/

/-- New registers leave every other part of the state as it was. -/
theorem unchanged_with_v (s : State) (v : Vector Byte 16) : Unchanged [.regs] s { s with v := v } := by
  intro p hp
  cases p with
  | regs => exact absurd (List.mem_singleton_self _) hp
  | stack | mem => exact fun _ => rfl
  | fb => exact fun _ _ => rfl
  | index | pc | sp | dt | st | keys | status | params | draws => rfl

theorem unchanged_writeResultAndFlag (x : Reg) (r f : Byte) (s : State) :
    Unchanged [.regs] s (writeResultAndFlag x r f s) := by
  unfold writeResultAndFlag
  cases s.cfg.flagOrder with
  | flagLast | resultLast => exact unchanged_with_v s _

theorem regsUnchanged_setV (s : State) (x : Reg) (b : Byte) : RegsUnchanged [x] s (s.setV x b) :=
  fun _ hr => State.getV_setV_ne (List.ne_of_not_mem_cons hr) s b

/-! ## The words of these instructions (R77) -/

theorem decodeWord_ldImm (hasSubn : Bool) (x : Reg) (nn : Byte) :
    decodeWord hasSubn (formatXK 0x6#4 x nn) = some (.ldImm x nn) := by simp [decodeWord]

theorem decodeWord_addImm (hasSubn : Bool) (x : Reg) (nn : Byte) :
    decodeWord hasSubn (formatXK 0x7#4 x nn) = some (.addImm x nn) := by simp [decodeWord]

/-- Every word with leading nibble 8 is decoded by its secondary nibble. -/
theorem decodeWord_family8 (hasSubn : Bool) (x y : Reg) (n : Nibble) :
    decodeWord hasSubn (formatXY 0x8#4 x y n) = decodeFamily8 hasSubn x y n.toNat := by simp [decodeWord]

/-! ## The effect of these instructions -/

theorem exec_ldImm (x : Reg) (nn : Byte) (s : State) : exec (.ldImm x nn) s = .next (s.setV x nn).advance := rfl

theorem exec_addImm (x : Reg) (nn : Byte) (s : State) :
    exec (.addImm x nn) s = .next (s.setV x (s.getV x + nn)).advance := rfl

theorem exec_ldReg (x y : Reg) (s : State) : exec (.ldReg x y) s = .next (s.setV x (s.getV y)).advance := rfl

theorem exec_addReg (x y : Reg) (s : State) :
    exec (.addReg x y) s =
      .next (writeResultAndFlag x (s.getV x + s.getV y) (carryFlag (s.getV x) (s.getV y)) s).advance := rfl

theorem exec_subReg (x y : Reg) (s : State) :
    exec (.subReg x y) s =
      .next (writeResultAndFlag x (s.getV x - s.getV y) (notBorrowFlag (s.getV x) (s.getV y)) s).advance := rfl

/-- An instruction that answers `(s.setV x b).advance` leaves `b` in VX and writes VX and pc alone. -/
theorem register_write_of_exec {i : Instr} {s : State} {x : Reg} {b : Byte}
    (hexec : exec i s = .next (s.setV x b).advance) :
    ∃ t, exec i s = .next t ∧ t.getV x = b ∧ RegsUnchanged [x] s t ∧ t.pc = s.pc + 2 ∧ Unchanged [.regs, .pc] s t :=
  ⟨_, hexec, State.getV_setV_self s x b, regsUnchanged_setV s x b, State.advance_pc _, (unchanged_with_v s _).advance⟩

/-- An instruction that answers `(writeResultAndFlag x r f s).advance` leaves `r` and `f` in VX and VF by `FLAG_ORDER`
(R147) and writes VX, VF and pc alone. -/
theorem result_and_flag_of_exec {i : Instr} {s : State} {x : Reg} {r f : Byte}
    (hexec : exec i s = .next (writeResultAndFlag x r f s).advance) :
    ∃ t, exec i s = .next t ∧ ResultAndFlag x r f s t ∧ t.pc = s.pc + 2 ∧ Unchanged [.regs, .pc] s t := by
  refine ⟨_, hexec, writeResultAndFlag_spec x r f s, ?_, (unchanged_writeResultAndFlag x r f s).advance⟩
  rw [State.advance_pc, writeResultAndFlag_pc]

/-! ## The results and flags as numbers -/

theorem add_eq_ofNat_mod (a b : Byte) : a + b = BitVec.ofNat 8 ((a.toNat + b.toNat) % 256) :=
  BitVec.eq_of_toNat_eq (by simp)

theorem sub_eq_ofNat_mod (a b : Byte) : a - b = BitVec.ofNat 8 ((a.toNat + 256 - b.toNat) % 256) := by
  apply BitVec.eq_of_toNat_eq
  rw [BitVec.toNat_sub, BitVec.toNat_ofNat]
  omega

theorem carryFlag_eq (a b : Byte) : carryFlag a b = if 255 < a.toNat + b.toNat then 1 else 0 := by
  simp [carryFlag, flagByte]

theorem notBorrowFlag_eq (a b : Byte) : notBorrowFlag a b = if b.toNat ≤ a.toNat then 1 else 0 := by
  simp [notBorrowFlag, flagByte]

/-! ## The obligations -/

/-- Settles O24: both write one register, the immediate or a copy of VY. -/
theorem loadImmediateAndCopy : Obligations.LoadImmediateAndCopy := by
  intro x y nn s
  refine ⟨decodeWord_ldImm _ x nn, decodeWord_family8 _ x y 0x0#4, ?_, ?_⟩
  · exact register_write_of_exec (exec_ldImm x nn s)
  · exact register_write_of_exec (exec_ldReg x y s)

/-- Settles O25: it writes one register, the sum of bytes, which wraps at 256. -/
theorem addImmediateWrapsWithoutFlag : Obligations.AddImmediateWrapsWithoutFlag := by
  intro x nn s
  obtain ⟨t, hexec, hx, hframe⟩ := register_write_of_exec (exec_addImm x nn s)
  refine ⟨decodeWord_addImm _ x nn, t, hexec, ?_, hframe⟩
  rw [hx]
  exact BitVec.toNat_add _ _

/-- Settles O27: it writes the sum of bytes with its carry as a result and its flag. -/
theorem addSetsCarry : Obligations.AddSetsCarry := by
  intro x y s
  refine ⟨decodeWord_family8 _ x y 0x4#4, ?_⟩
  rw [← add_eq_ofNat_mod, ← carryFlag_eq]
  exact result_and_flag_of_exec (exec_addReg x y s)

/-- Settles O28: it writes the difference of bytes with its not-borrow as a result and its flag. -/
theorem subSetsNotBorrow : Obligations.SubSetsNotBorrow := by
  intro x y s
  refine ⟨decodeWord_family8 _ x y 0x5#4, ?_⟩
  rw [← sub_eq_ofNat_mod, ← notBorrowFlag_eq]
  exact result_and_flag_of_exec (exec_subReg x y s)

end Sys2Proof.Machine
end

section
/-!
PROOFS. The stores at I (43_memory_index.md R174, R175): the frame of an update of memory and I alone, the decimal digits
and the registers of a bulk store one by one, and what each store does inside memory and outside it.
-/

namespace Sys2Proof.Machine

/-- A new memory and a new I leave every other part of the state as it was. -/
theorem unchanged_with_mem_index (s : State) (m : Memory) (a : Word) :
    Unchanged [.mem, .index] s { s with mem := m, i := a } := by
  intro p hp
  obtain ⟨hmem, hindex⟩ : p ≠ .mem ∧ p ≠ .index := by simpa using hp
  cases p with
  | mem => exact absurd rfl hmem
  | index => exact absurd rfl hindex
  | regs | stack => exact fun _ => rfl
  | fb => exact fun _ _ => rfl
  | pc | sp | dt | st | keys | status | params | draws => rfl

/-! ## The bytes stored -/

@[simp] theorem length_decimalDigits (b : Byte) : (decimalDigits b).length = 3 := rfl

/-- The digits are below 256, so their bytes are the digits. -/
theorem decimalDigits_toNat (b : Byte) :
    (decimalDigits b)[0].toNat = b.toNat / 100 ∧ (decimalDigits b)[1].toNat = b.toNat / 10 % 10 ∧
      (decimalDigits b)[2].toNat = b.toNat % 10 := by
  have hb := b.isLt
  refine ⟨Nat.mod_eq_of_lt ?_, Nat.mod_eq_of_lt ?_, Nat.mod_eq_of_lt ?_⟩ <;> omega

/-- The three bytes of a block write of the digits, as numbers. -/
theorem read_writeBytes_decimalDigits (m : Memory) (a : Nat) (b : Byte) :
    ((m.writeBytes a (decimalDigits b)).read a).toNat = b.toNat / 100 ∧
      ((m.writeBytes a (decimalDigits b)).read (a + 1)).toNat = b.toNat / 10 % 10 ∧
      ((m.writeBytes a (decimalDigits b)).read (a + 2)).toNat = b.toNat % 10 := by
  have hread (k : Nat) (hk : k < (decimalDigits b).length) :
      (m.writeBytes a (decimalDigits b)).read (a + k) = (decimalDigits b)[k] := Memory.read_writeBytes_of_lt hk
  have hfirst := hread 0 (Nat.succ_pos 2)
  rw [Nat.add_zero] at hfirst
  rw [hfirst, hread 1 (by simp), hread 2 (by simp)]
  exact decimalDigits_toNat b

@[simp] theorem length_regsUpTo (x : Reg) (s : State) : (regsUpTo x s).length = x.val + 1 := by
  simp [regsUpTo]

@[simp] theorem getElem_regsUpTo (x k : Reg) (s : State) (h : k.val < (regsUpTo x s).length) :
    (regsUpTo x s)[k.val] = s.getV k := by
  simp [regsUpTo, State.getV]

/-! ## The words and the effect of the stores -/

/-- Every word with leading nibble F is decoded by its secondary byte (R77). -/
theorem decodeWord_familyF (hasSubn : Bool) (x : Reg) (nn : Byte) :
    decodeWord hasSubn (formatX 0xF#4 x nn) = decodeFamilyF x nn.toNat := by simp [decodeWord]

theorem exec_ldB_of_inside {s : State} (h : InMemory s.i 3) (x : Reg) :
    exec (.ldB x) s = .next { s with mem := s.mem.writeBytes s.i.toNat (decimalDigits (s.getV x)) }.advance :=
  withRangeAtI_of_inside h _ _

theorem exec_ldB_of_outside {s : State} (h : ¬ InMemory s.i 3) (x : Reg) :
    exec (.ldB x) s = .next (s.takeFault (outOfBoundsAt s (some (encode (.ldB x))) s.i)) :=
  withRangeAtI_of_outside (Nat.succ_ne_zero _) h _ _

theorem exec_storeRegs_of_inside {x : Reg} {s : State} (h : InMemory s.i (x.val + 1)) :
    exec (.storeRegs x) s =
      .next { s with
        mem := s.mem.writeBytes s.i.toNat (regsUpTo x s)
        i := s.i + BitVec.ofNat 16 (x.val + 1) }.advance :=
  withRangeAtI_of_inside h _ _

theorem exec_storeRegs_of_outside {x : Reg} {s : State} (h : ¬ InMemory s.i (x.val + 1)) :
    exec (.storeRegs x) s = .next (s.takeFault (outOfBoundsAt s (some (encode (.storeRegs x))) s.i)) :=
  withRangeAtI_of_outside (Nat.succ_ne_zero _) h _ _

/-- Moved past bytes that lie inside memory, I does not wrap. -/
theorem index_add_toNat_of_inMemory {a : Word} {n : Nat} (h : InMemory a n) :
    (a + BitVec.ofNat 16 n).toNat = a.toNat + n := by
  unfold InMemory memSize at h
  rw [BitVec.toNat_add, BitVec.toNat_ofNat]
  omega

/-! ## The obligations -/

/-- Settles O32: inside memory it is one block write of the three digits, outside it the range fault. -/
theorem bcdStoresDecimalDigits : Obligations.BcdStoresDecimalDigits := by
  intro x s
  refine ⟨decodeWord_familyF _ x 0x33#8, fun hin => ?_, fun hout => ⟨_, _, exec_ldB_of_outside hout x⟩⟩
  obtain ⟨hhundreds, htens, hones⟩ := read_writeBytes_decimalDigits s.mem s.i.toNat (s.getV x)
  refine ⟨_, exec_ldB_of_inside hin x, hhundreds, htens, hones, fun b hb => ?_, State.advance_pc _, ?_⟩
  · exact Memory.read_writeBytes_outside hb
  · exact (unchanged_with_mem s _).advance

/-- Settles O33: inside memory it is one block write of the registers up to VX and a move of I that does not wrap, outside
it the range fault. -/
theorem bulkStoreWritesRegisters : Obligations.BulkStoreWritesRegisters := by
  intro x s
  refine ⟨decodeWord_familyF _ x 0x55#8, fun hin => ?_, fun hout => ⟨_, _, exec_storeRegs_of_outside hout⟩⟩
  refine ⟨_, exec_storeRegs_of_inside hin, fun k hk => ?_, fun b hb => ?_, ?_, State.advance_pc _, ?_⟩
  · have hlt : k.val < (regsUpTo x s).length := by rw [length_regsUpTo]; omega
    exact (Memory.read_writeBytes_of_lt hlt).trans (getElem_regsUpTo x k s hlt)
  · exact Memory.read_writeBytes_outside (by rwa [length_regsUpTo])
  · exact index_add_toNat_of_inMemory hin
  · exact (unchanged_with_mem_index s _ _).advance

end Sys2Proof.Machine
end

section
/-!
PROOFS. Timers (44_timers.md R190 to R193): the frames of an update of one timer, what n ticks do to a state, and the
instructions that read and set the timers.
-/

namespace Sys2Proof.Machine

/-! ## Updates of the timers -/

/-- Two updates in a row change at most what each of them changes. -/
theorem Unchanged.trans {except except' : List Part} {s t u : State} (h : Unchanged except s t)
    (h' : Unchanged except' t u) : Unchanged (except ++ except') s u := by
  intro p hp
  obtain ⟨hfirst, hsecond⟩ : p ∉ except ∧ p ∉ except' := by simpa using hp
  have hst : Part.same s t p := h p hfirst
  have htu : Part.same t u p := h' p hsecond
  cases p with
  | regs | stack | mem => exact fun a => (htu a).trans (hst a)
  | fb => exact fun y x => (htu y x).trans (hst y x)
  | index | pc | sp | dt | st | keys | status | params | draws => exact Eq.trans htu hst

/-- A new delay timer leaves every other part of the state as it was. -/
theorem unchanged_with_dt (s : State) (b : Byte) : Unchanged [.dt] s { s with dt := b } := by
  intro p hp
  cases p with
  | dt => exact absurd (List.mem_singleton_self _) hp
  | regs | stack | mem => exact fun _ => rfl
  | fb => exact fun _ _ => rfl
  | index | pc | sp | st | keys | status | params | draws => rfl

/-- A new sound timer leaves every other part of the state as it was. -/
theorem unchanged_with_st (s : State) (b : Byte) : Unchanged [.st] s { s with st := b } := by
  intro p hp
  cases p with
  | st => exact absurd (List.mem_singleton_self _) hp
  | regs | stack | mem => exact fun _ => rfl
  | fb => exact fun _ _ => rfl
  | index | pc | sp | dt | keys | status | params | draws => rfl

/-! ## Ticks in a row (R193) -/

/-- `n` ticks are `n` countdowns of each timer. -/
theorem iterate_timerTick (n : Nat) (s : State) :
    State.timerTick^[n] s = { s with dt := countdown^[n] s.dt, st := countdown^[n] s.st } := by
  induction n with
  | zero => rfl
  | succ n ih => simp only [Function.iterate_succ_apply', ih, State.timerTick]

/-- `n` countdowns take `n` from a timer and stop at zero. -/
theorem iterate_countdown_toNat (n : Nat) (b : Byte) : (countdown^[n] b).toNat = b.toNat - n := by
  induction n with
  | zero => rfl
  | succ n ih => rw [Function.iterate_succ_apply', countdown_toNat, ih, Nat.sub_sub]

/-! ## The effect of the timer instructions -/

theorem exec_ldFromDt (x : Reg) (s : State) : exec (.ldFromDt x) s = .next (s.setV x s.dt).advance := rfl

theorem exec_ldDt (x : Reg) (s : State) : exec (.ldDt x) s = .next { s with dt := s.getV x }.advance := rfl

theorem exec_ldSt (x : Reg) (s : State) : exec (.ldSt x) s = .next { s with st := s.getV x }.advance := rfl

/-! ## The obligations -/

/-- Settles O37: by induction on the number of ticks, `n` ticks are `n` saturating countdowns of each timer, an update of
the two timers alone. -/
theorem ticksCountDownAndSaturate : Obligations.TicksCountDownAndSaturate := by
  intro n s
  rw [iterate_timerTick]
  refine ⟨iterate_countdown_toNat n s.dt, iterate_countdown_toNat n s.st, ?_⟩
  exact (unchanged_with_dt s (countdown^[n] s.dt)).trans (unchanged_with_st _ _)

/-- Settles O36: FX07 is a register write of DT, FX15 and FX18 are each an update of one timer alone; all three then
advance pc. -/
theorem timerInstructions : Obligations.TimerInstructions := by
  intro x s
  refine ⟨decodeWord_familyF _ x 0x07#8, decodeWord_familyF _ x 0x15#8, decodeWord_familyF _ x 0x18#8, ?_, ?_, ?_⟩
  · exact register_write_of_exec (exec_ldFromDt x s)
  · exact ⟨_, exec_ldDt x s, State.advance_dt _, State.advance_pc _, (unchanged_with_dt s _).advance⟩
  · exact ⟨_, exec_ldSt x s, State.advance_st _, State.advance_pc _, (unchanged_with_st s _).advance⟩

end Sys2Proof.Machine
end

section
/-!
PROOFS. The collision flag (46_draw.md R212): the pixels a draw turns from 1 to 0 are the set pixels under a set bit of the
sprite.
-/

namespace Sys2Proof.Machine

/-- A set pixel stays set exactly where no set bit of the sprite is over it. -/
theorem composite_pixel_of_set {s : State} {r : Fin 32} {q : Fin 64} (hset : s.fb.pixel r q = true) (col row : Byte)
    (n : Nibble) : (composite col row n.toNat s).fb.pixel r q = true ↔ ¬ SpriteCovers s col row n.toNat r q := by
  rw [composite_pixel, iff_true_left hset]

/-- Settles O41: VF says whether a set pixel is under a set bit of the sprite, and those are the pixels the draw clears. -/
theorem collisionFlagIsAggregate : Obligations.CollisionFlagIsAggregate := by
  intro x y n s hruns
  obtain ⟨hone, hzero⟩ := composite_getV (s.getV x) (s.getV y) n s 15
  refine ⟨_, exec_drw_of_runs hruns x y, ?_, fun hkept => ?_⟩
  · rintro ⟨r, c, hset, hcleared⟩
    rw [State.advance_fb, ← Bool.not_eq_true, composite_pixel_of_set hset, not_not] at hcleared
    exact hone ⟨r, c, hset, hcleared⟩
  · refine hzero ?_
    rintro ⟨r, c, hset, hcovered⟩
    exact (composite_pixel_of_set hset _ _ _).mp (hkept r c hset) hcovered

end Sys2Proof.Machine
end

section
/-!
PROOFS. Faults (60_exceptions.md R301): a next state with a fault on record is the state before with that fault taken, for
an instruction, for the end of a step and for the whole step.
-/

namespace Sys2Proof.Machine

/-- A fault that was taken is the fault on record. -/
theorem takeFault_eq_of_status {s : State} {f g : Fault} (h : (s.takeFault g).status = .faulted f) :
    s.takeFault g = s.takeFault f := by
  rw [State.takeFault_status] at h
  cases h
  rfl

/-- An instruction of a running state that ends with a fault on record has taken that fault and done nothing else. -/
theorem eq_takeFault_of_exec {i : Instr} {s t : State} {f : Fault} (hrun : s.status = .running)
    (hexec : exec i s = .next t) (hfault : t.status = .faulted f) : t = s.takeFault f := by
  rcases ends_of_exec hexec with ⟨g, rfl, _, _⟩ | ⟨x, _, rfl⟩ | hkept
  · exact takeFault_eq_of_status hfault
  · cases hfault
  · cases hrun.symm.trans (hkept.symm.trans hfault)

/-- The end of a step neither raises a fault nor ticks after one: a fault on record is the instruction's state as it was. -/
theorem eq_of_finishStep_faulted {t u : State} {f : Fault} (hend : finishStep (.next u) = .next t)
    (hfault : t.status = .faulted f) : t = u := by
  rw [finishStep_next] at hend
  split at hend <;> cases hend
  · rfl
  · rw [State.tickPerStep_status] at hfault
    exact absurd hfault (‹∀ g, u.status = .faulted g → False› f)

/-- Settles O10: the faults of the fetch and of the decoder are taken at once; an instruction's fault is taken by the
instruction alone, and the end of the step adds no tick to it. -/
theorem faultingStepChangesOnlyStatus : Obligations.FaultingStepChangesOnlyStatus := by
  intro s t f hrun hstep hfault
  rw [step_of_running hrun] at hstep
  change t = s.takeFault f
  rcases runStep_cases s with ⟨g, _, hfetch⟩ | ⟨_, _, hdecode⟩ | ⟨i, u, _, _, hexec, hfinish⟩
  · cases hfetch.symm.trans hstep
    exact takeFault_eq_of_status hfault
  · cases hdecode.symm.trans hstep
    exact takeFault_eq_of_status hfault
  · obtain rfl : t = u := eq_of_finishStep_faulted (hfinish.symm.trans hstep) hfault
    exact eq_takeFault_of_exec hrun hexec hfault

end Sys2Proof.Machine
end

section
/-!
PROOFS. Encoding (30_encoding.md R70 to R79): the words of the remaining instructions, decoder and encoder as inverses, and
the opcode table, whose rows are told apart by the fixed bits of a word.
-/

namespace Sys2Proof.Machine

/-! ## Decoding the word of an instruction (R77) -/

theorem decodeWord_jp (hasSubn : Bool) (nnn : Addr) : decodeWord hasSubn (formatA 0x1#4 nnn) = some (.jp nnn) := by
  simp [decodeWord]

theorem decodeWord_call (hasSubn : Bool) (nnn : Addr) :
    decodeWord hasSubn (formatA 0x2#4 nnn) = some (.call nnn) := by simp [decodeWord]

theorem decodeWord_ldI (hasSubn : Bool) (nnn : Addr) : decodeWord hasSubn (formatA 0xA#4 nnn) = some (.ldI nnn) := by
  simp [decodeWord]

theorem decodeWord_jpV0 (hasSubn : Bool) (nnn : Addr) :
    decodeWord hasSubn (formatA 0xB#4 nnn) = some (.jpV0 nnn) := by simp [decodeWord]

theorem decodeWord_rnd (hasSubn : Bool) (x : Reg) (nn : Byte) :
    decodeWord hasSubn (formatXK 0xC#4 x nn) = some (.rnd x nn) := by simp [decodeWord]

theorem decodeWord_drw (hasSubn : Bool) (x y : Reg) (n : Nibble) :
    decodeWord hasSubn (formatXY 0xD#4 x y n) = some (.drw x y n) := by simp [decodeWord]

/-- Every word with leading nibble E is decoded by its secondary byte. -/
theorem decodeWord_familyE (hasSubn : Bool) (x : Reg) (nn : Byte) :
    decodeWord hasSubn (formatX 0xE#4 x nn) = decodeFamilyE x nn.toNat := by simp [decodeWord]

/-- Settles O1: one case per instruction; a word of family 8, E or F is decoded by its secondary digits, which are the
instruction's own. -/
theorem decodeOfEncodeGivesInstruction : Obligations.DecodeOfEncodeGivesInstruction := by
  intro hasSubn i hwf
  cases i with
  | cls | ret => rfl
  | jp nnn => exact decodeWord_jp _ nnn
  | call nnn => exact decodeWord_call _ nnn
  | jpV0 nnn => exact decodeWord_jpV0 _ nnn
  | ldI nnn => exact decodeWord_ldI _ nnn
  | seImm x nn => exact decodeWord_seImm _ x nn
  | sneImm x nn => exact decodeWord_sneImm _ x nn
  | ldImm x nn => exact decodeWord_ldImm _ x nn
  | addImm x nn => exact decodeWord_addImm _ x nn
  | rnd x nn => exact decodeWord_rnd _ x nn
  | seReg x y => exact decodeWord_seReg _ x y 0#4
  | sneReg x y => exact decodeWord_sneReg _ x y 0#4
  | drw x y n => exact decodeWord_drw _ x y n
  | ldReg x y | orReg x y | andReg x y | xorReg x y | addReg x y | subReg x y | shr x y | shl x y =>
    exact decodeWord_family8 _ x y _
  | subn x y =>
    obtain rfl : hasSubn = true := hwf
    exact decodeWord_family8 _ x y _
  | skp x | sknp x => exact decodeWord_familyE _ x _
  | addI x | ldF x | ldB x | storeRegs x | loadRegs x | ldFromDt x | ldDt x | ldSt x | ldKey x =>
    exact decodeWord_familyF _ x _

/-! ## Encoding the instruction of a word (R76) -/

theorem encode_of_decodeFamily8 {hasSubn : Bool} {w : Word} {i : Instr} (hop : opField w = 0x8)
    (h : decodeFamily8 hasSubn (xField w) (yField w) (nField w).toNat = some i) :
    encode i = w ∧ i.wellFormed hasSubn = true := by
  unfold decodeFamily8 at h
  split at h
  case h_8 hn =>
    split at h <;> cases h
    exact ⟨formatXY_of_fields hop hn, ‹_›⟩
  all_goals cases h
  all_goals exact ⟨formatXY_of_fields hop ‹_›, rfl⟩

theorem encode_of_decodeFamilyE {hasSubn : Bool} {w : Word} {i : Instr} (hop : opField w = 0xE)
    (h : decodeFamilyE (xField w) (nnField w).toNat = some i) : encode i = w ∧ i.wellFormed hasSubn = true := by
  unfold decodeFamilyE at h
  split at h <;> cases h
  all_goals exact ⟨formatX_of_fields hop ‹_›, rfl⟩

theorem encode_of_decodeFamilyF {hasSubn : Bool} {w : Word} {i : Instr} (hop : opField w = 0xF)
    (h : decodeFamilyF (xField w) (nnField w).toNat = some i) : encode i = w ∧ i.wellFormed hasSubn = true := by
  unfold decodeFamilyF at h
  split at h <;> cases h
  all_goals exact ⟨formatX_of_fields hop ‹_›, rfl⟩

/-- Settles O2: by the leading nibble of the word, each format puts its fields back together. -/
theorem encodeOfDecodeGivesWord : Obligations.EncodeOfDecodeGivesWord := by
  intro hasSubn w i h
  unfold decodeWord at h
  split at h
  case h_1 =>
    split at h
    · cases h; exact ⟨Eq.symm ‹_›, rfl⟩
    · split at h <;> cases h
      exact ⟨Eq.symm ‹_›, rfl⟩
  case h_6 hop | h_10 hop =>
    split at h <;> cases h
    exact ⟨formatXY_of_fields hop (congrArg BitVec.toNat ‹_›), rfl⟩
  case h_9 hop => exact encode_of_decodeFamily8 hop h
  case h_15 hop => exact encode_of_decodeFamilyE hop h
  case h_16 hop => exact encode_of_decodeFamilyF hop h
  case h_2 hop | h_3 hop | h_11 hop | h_12 hop => cases h; exact ⟨formatA_of_fields hop, rfl⟩
  case h_4 hop | h_5 hop | h_7 hop | h_8 hop | h_13 hop => cases h; exact ⟨formatXK_of_fields hop, rfl⟩
  case h_14 hop => cases h; exact ⟨formatXY_of_fields hop rfl, rfl⟩
  case h_17 => cases h

end Sys2Proof.Machine
end

section
/-!
PROOFS. The opcode table (30_encoding.md R76 to R79): a row's mask is fixed by its leading nibble, and the decoder looks at
the bits under that mask alone to accept a word. The bytes of an instruction (20_memory.md R55, R58).
-/

namespace Sys2Proof.Machine

/-! ## The mask of a leading nibble -/

/-- The bits by which the rows with leading nibble `op` are told apart: all bits in family 0, the secondary nibble in 5, 8
and 9, the secondary byte in E and F, and no others elsewhere (R77). -/
def maskOfOp : Nat → Word
  | 0x0 => 0xFFFF#16
  | 0x5 | 0x8 | 0x9 => 0xF00F#16
  | 0xE | 0xF => 0xF0FF#16
  | _ => 0xF000#16

theorem mask_eq_maskOfOp : ∀ r ∈ opcodeRows, r.mask = maskOfOp (opField r.fixed) := by decide

theorem decodeWord_fixed_isSome : ∀ hasSubn, ∀ r ∈ opcodeRowsOf hasSubn, (decodeWord hasSubn r.fixed).isSome := by
  decide

theorem mem_opcodeRows_of_mem_opcodeRowsOf {hasSubn : Bool} {r : OpcodeRow} (h : r ∈ opcodeRowsOf hasSubn) :
    r ∈ opcodeRows := by
  unfold opcodeRowsOf at h
  split at h
  · exact h
  · exact List.mem_of_mem_take h

/-! ## The fields of a masked word -/

/-- A word is put together from its four nibbles. -/
theorem formatXY_fields (w : Word) : formatXY (w.extractLsb' 12 4) (xField w) (yField w) (nField w) = w :=
  formatXY_of_fields rfl rfl

theorem opField_and_F000 (w : Word) : opField (w &&& 0xF000#16) = opField w := by
  conv_lhs => rw [← formatXY_fields w, Laws.RowMatch.formatXYN_and]
  exact opField_formatXY _ 0 0 0

theorem nField_and_F00F (w : Word) : nField (w &&& 0xF00F#16) = nField w := by
  conv_lhs => rw [← formatXY_fields w, Laws.RowMatch.formatXY_and]
  exact nField_formatXY _ 0 0 _

theorem nnField_and_F0FF (w : Word) : nnField (w &&& 0xF0FF#16) = nnField w := by
  conv_lhs => rw [← formatX_of_fields (w := w) (op := w.extractLsb' 12 4) rfl rfl, Laws.RowMatch.formatX_and]
  exact nnField_formatX _ 0 _

/-- No mask hides the leading nibble. -/
theorem opField_and_maskOfOp (w : Word) (op : Nat) : opField (w &&& maskOfOp op) = opField w := by
  have hkept : maskOfOp op &&& 0xF000#16 = 0xF000#16 := by
    unfold maskOfOp
    split <;> rfl
  rw [← opField_and_F000, BitVec.and_assoc, hkept, opField_and_F000]

/-- A word covered by a row has the row's leading nibble, and the row's fixed bits are the word's under the mask of that
nibble. -/
theorem opField_and_masked_of_covers {r : OpcodeRow} (hr : r ∈ opcodeRows) (w : Word) (h : r.covers w = true) :
    opField w = opField r.fixed ∧ w &&& maskOfOp (opField w) = r.fixed := by
  have hand : w &&& maskOfOp (opField r.fixed) = r.fixed := by
    rw [← mask_eq_maskOfOp r hr]
    exact beq_iff_eq.mp h
  have hop : opField w = opField r.fixed := by rw [← opField_and_maskOfOp w (opField r.fixed), hand]
  exact ⟨hop, hop ▸ hand⟩

/-! ## What the decoder looks at to accept a word -/

theorem decodeFamily8_isSome (hasSubn : Bool) (x y x' y' : Reg) (n : Nat) :
    (decodeFamily8 hasSubn x y n).isSome = (decodeFamily8 hasSubn x' y' n).isSome := by
  unfold decodeFamily8
  split
  case h_8 => cases hasSubn <;> rfl
  all_goals rfl

theorem decodeFamilyE_isSome (x x' : Reg) (nn : Nat) : (decodeFamilyE x nn).isSome = (decodeFamilyE x' nn).isSome := by
  unfold decodeFamilyE
  split <;> rfl

theorem decodeFamilyF_isSome (x x' : Reg) (nn : Nat) : (decodeFamilyF x nn).isSome = (decodeFamilyF x' nn).isSome := by
  unfold decodeFamilyF
  split <;> rfl

/-- The decoder accepts a word exactly when it accepts the bits under the mask of its leading nibble. -/
theorem decodeWord_isSome_and_maskOfOp (hasSubn : Bool) (w : Word) :
    (decodeWord hasSubn (w &&& maskOfOp (opField w))).isSome = (decodeWord hasSubn w).isSome := by
  have hop := opField_and_maskOfOp w (opField w)
  unfold decodeWord
  rw [hop]
  split <;> rename_i h
  case h_1 => rw [h, show maskOfOp 0x0 = BitVec.allOnes 16 from rfl, BitVec.and_allOnes]
  case h_6 | h_10 =>
    rw [h, show maskOfOp _ = 0xF00F#16 from rfl, nField_and_F00F]
    split <;> rfl
  case h_9 => rw [h, show maskOfOp _ = 0xF00F#16 from rfl, nField_and_F00F, decodeFamily8_isSome]
  case h_15 => rw [h, show maskOfOp _ = 0xF0FF#16 from rfl, nnField_and_F0FF, decodeFamilyE_isSome]
  case h_16 => rw [h, show maskOfOp _ = 0xF0FF#16 from rfl, nnField_and_F0FF, decodeFamilyF_isSome]
  all_goals rfl

/-- A word a row of the block's table covers is accepted, as the row's fixed bits are. -/
theorem decodeWord_isSome_of_covers {hasSubn : Bool} {r : OpcodeRow} {w : Word} (hr : r ∈ opcodeRowsOf hasSubn)
    (h : r.covers w = true) : (decodeWord hasSubn w).isSome := by
  obtain ⟨_, hfixed⟩ := opField_and_masked_of_covers (mem_opcodeRows_of_mem_opcodeRowsOf hr) w h
  rw [← decodeWord_isSome_and_maskOfOp, hfixed]
  exact decodeWord_fixed_isSome hasSubn r hr

/-! ## The row of an instruction -/

/-- The row of an instruction is in the table and covers its word (R76). -/
theorem row_covers_encode (i : Instr) : Laws.RowMatch.Statement i := by
  open Laws.RowMatch in
  cases i with
  | cls => exact cls
  | ret => exact ret
  | jp nnn => exact jp nnn
  | call nnn => exact call nnn
  | jpV0 nnn => exact jpV0 nnn
  | seImm x nn => exact seImm x nn
  | sneImm x nn => exact sneImm x nn
  | seReg x y => exact seReg x y
  | sneReg x y => exact sneReg x y
  | ldImm x nn => exact ldImm x nn
  | addImm x nn => exact addImm x nn
  | ldReg x y => exact ldReg x y
  | orReg x y => exact orReg x y
  | andReg x y => exact andReg x y
  | xorReg x y => exact xorReg x y
  | addReg x y => exact addReg x y
  | subReg x y => exact subReg x y
  | shr x y => exact shr x y
  | shl x y => exact shl x y
  | ldI nnn => exact ldI nnn
  | addI x => exact addI x
  | ldF x => exact ldF x
  | ldB x => exact ldB x
  | storeRegs x => exact storeRegs x
  | loadRegs x => exact loadRegs x
  | ldFromDt x => exact ldFromDt x
  | ldDt x => exact ldDt x
  | ldSt x => exact ldSt x
  | rnd x nn => exact rnd x nn
  | drw x y n => exact drw x y n
  | skp x => exact skp x
  | sknp x => exact sknp x
  | ldKey x => exact ldKey x
  | subn x y => exact subn x y

/-- The last row of the table is 8XY7's alone. -/
theorem row_mem_opcodeRowsOf {hasSubn : Bool} {i : Instr} (h : i.wellFormed hasSubn = true) :
    i.row ∈ opcodeRowsOf hasSubn := by
  have hmem : i.row ∈ opcodeRows := (row_covers_encode i).2
  cases hasSubn with
  | true => exact hmem
  | false =>
    have hlast : ∀ r ∈ opcodeRows, r ≠ ⟨0x8007#16, 0xF00F#16⟩ → r ∈ opcodeRowsOf false := by decide
    refine hlast _ hmem ?_
    cases i with
    | subn x y => cases h
    | _ => simp [Instr.row]

/-! ## The obligations -/

/-- Settles O3: a decoded word is the encoding of its instruction, which is of that instruction's row; and a covered word is
accepted because the decoder looks at the bits under the row's mask alone. -/
theorem decoderAgreesWithOpcodeTable : Obligations.DecoderAgreesWithOpcodeTable := by
  intro hasSubn w
  have hrow : ∀ i, decodeWord hasSubn w = some i → i.row ∈ opcodeRowsOf hasSubn ∧ i.row.covers w = true := by
    intro i hdecode
    obtain ⟨rfl, hwf⟩ := encodeOfDecodeGivesWord hasSubn w i hdecode
    exact ⟨row_mem_opcodeRowsOf hwf, (row_covers_encode i).1⟩
  refine ⟨⟨fun hnone r hr => ?_, fun huncovered => ?_⟩, hrow⟩
  · rw [← Bool.not_eq_true]
    intro hcovers
    have hsome := decodeWord_isSome_of_covers hr hcovers
    rw [hnone] at hsome
    cases hsome
  · rw [Option.eq_none_iff_forall_ne_some]
    intro i hdecode
    obtain ⟨hmem, hcovers⟩ := hrow i hdecode
    exact absurd hcovers (Bool.eq_false_iff.mp (huncovered _ hmem))

/-- Settles O4: two rows that cover one word have its leading nibble, so the same mask, so the same fixed bits; and the
table lists no row twice. -/
theorem opcodeRowsDoNotOverlap : Obligations.OpcodeRowsDoNotOverlap := by
  have hnodup : opcodeRows.Pairwise (· ≠ ·) := by decide
  refine hnodup.imp_of_mem fun {r q} hr hq hne w ⟨hrw, hqw⟩ => hne ?_
  obtain ⟨hrop, hrfixed⟩ := opField_and_masked_of_covers hr w hrw
  obtain ⟨hqop, hqfixed⟩ := opField_and_masked_of_covers hq w hqw
  have hfixed : r.fixed = q.fixed := hrfixed.symm.trans hqfixed
  have hmask : r.mask = q.mask := by rw [mask_eq_maskOfOp r hr, mask_eq_maskOfOp q hq, hfixed]
  exact congrArg₂ OpcodeRow.mk hfixed hmask

/-! ## The bytes of an instruction (R55, R58) -/

theorem bytesOfWord_eq (w : Word) :
    bytesOfWord w = [BitVec.ofNat 8 (w.toNat / 256), BitVec.ofNat 8 (w.toNat % 256)] := by
  have hhigh : w.extractLsb' 8 8 = BitVec.ofNat 8 (w.toNat / 256) := by
    apply BitVec.eq_of_toNat_eq
    rw [BitVec.extractLsb'_toNat, BitVec.toNat_ofNat, Nat.shiftRight_eq_div_pow]
  have hlow : w.extractLsb' 0 8 = BitVec.ofNat 8 (w.toNat % 256) := by
    apply BitVec.eq_of_toNat_eq
    rw [BitVec.extractLsb'_toNat, BitVec.toNat_ofNat, Nat.shiftRight_zero, Nat.mod_mod]
  rw [bytesOfWord, hhigh, hlow]

/-- The two bytes of a word, the high one first, are the word again. -/
theorem wordOfBytes_bytes (w : Word) : wordOfBytes (w.extractLsb' 8 8) (w.extractLsb' 0 8) = w := by
  have hw := w.isLt
  apply BitVec.eq_of_toNat_eq
  rw [wordOfBytes_toNat, BitVec.extractLsb'_toNat, BitVec.extractLsb'_toNat, Nat.shiftRight_eq_div_pow]
  omega

/-- Settles O5: the bytes are the halves of the word, which the decoder joins and decodes as that word. -/
theorem decodeOfEncodedBytesLeavesTheRest : Obligations.DecodeOfEncodedBytesLeavesTheRest := by
  intro hasSubn i rest hwf
  refine ⟨bytesOfWord_eq _, ?_⟩
  simp only [encodeBytes, bytesOfWord, List.cons_append, List.nil_append, decode, wordOfBytes_bytes,
    decodeOfEncodeGivesInstruction hasSubn i hwf]

/-- Settles O6: each word is one evaluation of the decoder. -/
theorem exampleWordsDecode : Obligations.ExampleWordsDecode := by
  unfold Obligations.ExampleWordsDecode
  decide

end Sys2Proof.Machine
end

section
/-!
PROOFS. What an instruction can do (10_state.md R21 to R37): its effect case by case where it has cases, and one inversion:
it reports a fault that names it, or it changes at most the parts its row of the table says it writes.
-/

namespace Sys2Proof.Machine

/-! ## The effect of the instructions that have cases -/

theorem exec_ret_of_empty {s : State} (h : s.sp.val = 0) :
    exec .ret s = .next (s.takeFault (.stackUnderflow s.pc (encode .ret))) := dif_pos h

theorem exec_ret_of_active {s : State} (h : s.sp.val ≠ 0) :
    exec .ret s = .next { s with sp := ⟨s.sp.val - 1, by omega⟩, pc := s.stack[s.sp.val - 1] } := dif_neg h

theorem exec_call_of_full {s : State} (h : s.sp.val = stackDepth) (nnn : Addr) :
    exec (.call nnn) s = .next (s.takeFault (.stackOverflow s.pc (encode (.call nnn)))) := dif_pos h

theorem exec_call_of_room {s : State} (h : s.sp.val < stackDepth) (nnn : Addr) :
    exec (.call nnn) s = .next { s with
      stack := s.stack.set s.sp.val (s.pc + 2)
      sp := ⟨s.sp.val + 1, Nat.succ_lt_succ h⟩
      pc := addrWord nnn } := dif_neg (Nat.ne_of_lt h)

/-- SP is below 16 unless the stack is full. -/
theorem sp_lt_of_ne {s : State} (h : s.sp.val ≠ stackDepth) : s.sp.val < stackDepth :=
  Nat.lt_of_le_of_ne (Nat.le_of_lt_succ s.sp.isLt) h

theorem exec_ldKey_of_none {s : State} (h : newKeys s.keys (firstSnapshot s) = []) (x : Reg) :
    exec (.ldKey x) s = .next { s with status := .awaitingKey x (firstSnapshot s) } := by
  simp only [exec, execLdKey, h]

theorem exec_ldKey_of_new {s : State} {k : Reg} {ks : List Reg} (h : newKeys s.keys (firstSnapshot s) = k :: ks) (x : Reg) :
    exec (.ldKey x) s = .next (captureKey x k ks s) := by
  simp only [exec, execLdKey, h]

/-! ## Faults an instruction reports (60_exceptions.md R302 to R308) -/

/-- The address or value at fault is one at fault: outside memory, odd, or above 0xF. -/
def Fault.NamesPlace : Fault → Prop
  | .outOfBoundsAddress _ _ a => memSize ≤ a.toNat
  | .misalignedFetch pc => pc.toNat % 2 = 1
  | .invalidKeyIndex _ _ v => 15 < v.toNat
  | .unknownInstruction _ _ | .stackOverflow _ _ | .stackUnderflow _ _ => True

/-- The record names the instruction `i` at the pc of `s`, and a place at fault. -/
structure NamesInstr (i : Instr) (s : State) (f : Fault) : Prop where
  pc : f.recordedPc = s.pc
  word : f.recordedWord = some (encode i)
  place : f.NamesPlace

/-- The address a range check reports lies outside memory. -/
theorem memSize_le_of_rangeFault {a b : Word} {n : Nat} (h : rangeFault a n = some b) : memSize ≤ b.toNat := by
  unfold rangeFault at h
  split at h
  · split at h
    · cases h; decide
    · cases h; omega
  · cases h

theorem keyOfByte_of_lt {b : Byte} (h : b.toNat < 16) : keyOfByte b = some ⟨b.toNat, h⟩ := dif_pos h

theorem keyOfByte_of_ge {b : Byte} (h : ¬ b.toNat < 16) : keyOfByte b = none := dif_neg h

/-- An access at I has its effect, or reports a fault that names the instruction. -/
theorem withRangeAtI_inv {i : Instr} {n : Nat} {s t u : State} (h : withRangeAtI i n s t = .next u) :
    (∃ f, u = s.takeFault f ∧ NamesInstr i s f) ∨ u = t := by
  unfold withRangeAtI at h
  split at h <;> cases h
  · exact .inl ⟨_, rfl, rfl, rfl, memSize_le_of_rangeFault ‹_›⟩
  · exact .inr rfl

/-- A key skip skips or not, or reports a fault that names the instruction. -/
theorem skipOnKey_inv {i : Instr} {x : Reg} {want : Bool} {s t : State} (h : skipOnKey i x want s = .next t) :
    (∃ f, t = s.takeFault f ∧ NamesInstr i s f) ∨ ∃ c, t = s.skipIf c := by
  unfold skipOnKey at h
  by_cases hkey : (s.getV x).toNat < 16
  · rw [keyOfByte_of_lt hkey] at h
    cases h
    exact .inr ⟨_, rfl⟩
  · rw [keyOfByte_of_ge hkey] at h
    cases h
    exact .inl ⟨_, rfl, rfl, rfl, Nat.lt_of_not_le fun hle => hkey (Nat.lt_succ_of_le hle)⟩

theorem exec_drw_inv {x y : Reg} {n : Nibble} {s t : State} (h : exec (.drw x y n) s = .next t) :
    (∃ f, t = s.takeFault f ∧ NamesInstr (.drw x y n) s f) ∨
      t = (composite (s.getV x) (s.getV y) n.toNat s).advance := by
  simp only [exec, execDrw] at h
  split at h
  · cases h
    exact .inl ⟨_, rfl, rfl, rfl, trivial⟩
  · exact withRangeAtI_inv h

theorem exec_ret_inv {s t : State} (h : exec .ret s = .next t) :
    (∃ f, t = s.takeFault f ∧ NamesInstr .ret s f) ∨
      ∃ _ : s.sp.val ≠ 0, t = { s with sp := ⟨s.sp.val - 1, by omega⟩, pc := s.stack[s.sp.val - 1] } := by
  by_cases hsp : s.sp.val = 0
  · rw [exec_ret_of_empty hsp] at h
    cases h
    exact .inl ⟨_, rfl, rfl, rfl, trivial⟩
  · rw [exec_ret_of_active hsp] at h
    cases h
    exact .inr ⟨hsp, rfl⟩

theorem exec_call_inv {nnn : Addr} {s t : State} (h : exec (.call nnn) s = .next t) :
    (∃ f, t = s.takeFault f ∧ NamesInstr (.call nnn) s f) ∨
      ∃ hsp : s.sp.val < stackDepth, t = { s with
        stack := s.stack.set s.sp.val (s.pc + 2)
        sp := ⟨s.sp.val + 1, Nat.succ_lt_succ hsp⟩
        pc := addrWord nnn } := by
  by_cases hsp : s.sp.val = stackDepth
  · rw [exec_call_of_full hsp] at h
    cases h
    exact .inl ⟨_, rfl, rfl, rfl, trivial⟩
  · rw [exec_call_of_room (sp_lt_of_ne hsp)] at h
    cases h
    exact .inr ⟨sp_lt_of_ne hsp, rfl⟩

theorem exec_ldKey_inv {x : Reg} {s t : State} (h : exec (.ldKey x) s = .next t) :
    t = { s with status := .awaitingKey x (firstSnapshot s) } ∨ ∃ k ks, t = captureKey x k ks s := by
  cases hkeys : newKeys s.keys (firstSnapshot s) with
  | nil =>
    rw [exec_ldKey_of_none hkeys] at h
    cases h
    exact .inl rfl
  | cons k ks =>
    rw [exec_ldKey_of_new hkeys] at h
    cases h
    exact .inr ⟨k, ks, rfl⟩

/-! ## The parts an instruction writes -/

/-- `s` with the parts that the instruction may write, where it reports no fault, taken from `u`. -/
def graft (i : Instr) (s u : State) : State :=
  match i with
  | .jp _ | .jpV0 _ | .seImm _ _ | .sneImm _ _ | .seReg _ _ | .sneReg _ _ | .skp _ | .sknp _ => { s with pc := u.pc }
  | .cls => { s with fb := u.fb, pc := u.pc }
  | .ret => { s with sp := u.sp, pc := u.pc }
  | .call _ => { s with stack := u.stack, sp := u.sp, pc := u.pc }
  | .ldI _ | .addI _ | .ldF _ => { s with i := u.i, pc := u.pc }
  | .ldB _ => { s with mem := u.mem, pc := u.pc }
  | .storeRegs _ => { s with mem := u.mem, i := u.i, pc := u.pc }
  | .loadRegs _ => { s with v := u.v, i := u.i, pc := u.pc }
  | .ldDt _ => { s with dt := u.dt, pc := u.pc }
  | .ldSt _ => { s with st := u.st, pc := u.pc }
  | .rnd _ _ => { s with v := u.v, draws := u.draws, pc := u.pc }
  | .drw _ _ _ => { s with fb := u.fb, v := u.v, pc := u.pc }
  | .ldKey _ => { s with v := u.v, draws := u.draws, pc := u.pc, status := u.status }
  | .ldImm _ _ | .addImm _ _ | .ldReg _ _ | .orReg _ _ | .andReg _ _ | .xorReg _ _ | .addReg _ _ | .subReg _ _
  | .shr _ _ | .shl _ _ | .subn _ _ | .ldFromDt _ => { s with v := u.v, pc := u.pc }

/-- A result, its flag and the advance of pc are an update of the registers and pc. -/
theorem writeResultAndFlag_advance_eq (x : Reg) (r f : Byte) (s : State) :
    (writeResultAndFlag x r f s).advance =
      { s with v := (writeResultAndFlag x r f s).advance.v, pc := (writeResultAndFlag x r f s).advance.pc } := by
  unfold writeResultAndFlag
  cases s.cfg.flagOrder with
  | flagLast | resultLast => rfl

/-- The inversion: an instruction reports a fault that names it and changes nothing else, or changes at most the parts it
may write. -/
theorem exec_cases {i : Instr} {s t : State} (h : exec i s = .next t) :
    (∃ f, t = s.takeFault f ∧ NamesInstr i s f) ∨ t = graft i s t := by
  cases i with
  | ret =>
    refine (exec_ret_inv h).imp_right ?_
    rintro ⟨_, rfl⟩
    rfl
  | call nnn =>
    refine (exec_call_inv h).imp_right ?_
    rintro ⟨_, rfl⟩
    rfl
  | skp x | sknp x =>
    refine (skipOnKey_inv h).imp_right ?_
    rintro ⟨c, rfl⟩
    rfl
  | drw x y n =>
    refine (exec_drw_inv h).imp_right ?_
    rintro rfl
    rfl
  | ldB x | storeRegs x | loadRegs x =>
    refine (withRangeAtI_inv h).imp_right ?_
    rintro rfl
    rfl
  | ldKey x =>
    refine .inr ?_
    rcases exec_ldKey_inv h with rfl | ⟨k, ks, rfl⟩
    · rfl
    · rfl
  | addReg x y | subReg x y | shr x y | shl x y | subn x y =>
    cases h
    exact .inr (writeResultAndFlag_advance_eq ..)
  | _ =>
    cases h
    exact .inr rfl

/-- No instruction writes the parameters. -/
theorem exec_cfg {i : Instr} {s t : State} (h : exec i s = .next t) : t.cfg = s.cfg := by
  rcases exec_cases h with ⟨f, rfl, _⟩ | ht
  · rfl
  · rw [ht]
    cases i <;> rfl

/-! ## Where pc goes (R25) -/

theorem addrWord_toNat (nnn : Addr) : (addrWord nnn).toNat = nnn.toNat :=
  BitVec.toNat_setWidth_of_le (by decide)

theorem byteWord_toNat (b : Byte) : (byteWord b).toNat = b.toNat :=
  BitVec.toNat_setWidth_of_le (by decide)

/-- A 12-bit address plus a byte does not wrap. -/
theorem addrWord_add_byteWord_toNat (nnn : Addr) (b : Byte) :
    (addrWord nnn + byteWord b).toNat = nnn.toNat + b.toNat := by
  have hnnn := nnn.isLt
  have hb := b.isLt
  rw [BitVec.toNat_add, addrWord_toNat, byteWord_toNat]
  omega

theorem skipIf_pc_cases (s : State) (c : Bool) : (s.skipIf c).pc = s.pc + 2 ∨ (s.skipIf c).pc = s.pc + 4 := by
  cases c with
  | false => exact .inl rfl
  | true => exact .inr rfl

/-! ## The obligations -/

/-- Settles O13: the advance and the skips are said by each instruction's effect; RET, CALL, the accesses at I and the key
instructions have their cases. -/
theorem pcAfterInstruction : Obligations.PcAfterInstruction := by
  intro i s t h
  cases i with
  | jp nnn =>
    cases h
    exact addrWord_toNat nnn
  | jpV0 nnn =>
    cases h
    exact addrWord_add_byteWord_toNat nnn _
  | seImm x nn | sneImm x nn | seReg x y | sneReg x y =>
    cases h
    exact skipIf_pc_cases s _
  | skp x | sknp x =>
    rcases skipOnKey_inv h with ⟨f, hf, _⟩ | ⟨c, rfl⟩
    · exact .inr (.inr ⟨f, hf⟩)
    · exact (skipIf_pc_cases s c).imp_right .inl
  | ret =>
    rcases exec_ret_inv h with ⟨f, hf, _⟩ | ⟨hsp, rfl⟩
    · exact .inr ⟨f, hf⟩
    · exact .inl (Vector.getElem?_eq_getElem _)
  | call nnn =>
    rcases exec_call_inv h with ⟨f, hf, _⟩ | ⟨hsp, rfl⟩
    · exact .inr ⟨f, hf⟩
    · exact .inl (addrWord_toNat nnn)
  | drw x y n =>
    rcases exec_drw_inv h with ⟨f, hf, _⟩ | rfl
    · exact .inr ⟨f, hf⟩
    · exact .inl (State.advance_pc _)
  | ldB x | storeRegs x | loadRegs x =>
    rcases withRangeAtI_inv h with ⟨f, hf, _⟩ | rfl
    · exact .inr ⟨f, hf⟩
    · exact .inl (State.advance_pc _)
  | ldKey x =>
    rcases exec_ldKey_inv h with rfl | ⟨k, ks, rfl⟩
    · exact .inr ⟨_, rfl⟩
    · exact .inl (captureKey_pc ..)
  | addReg x y | subReg x y | shr x y | shl x y | subn x y =>
    cases h
    exact congrArg (· + 2) (writeResultAndFlag_pc ..)
  | _ =>
    cases h
    rfl

/-- Settles O14: a fault changes Status alone; otherwise the instruction changes at most the parts it may write. -/
theorem writersOfEachPart : Obligations.WritersOfEachPart := by
  intro i s t h
  rcases exec_cases h with ⟨f, rfl, _⟩ | ht
  · have hself : ∃ g, s.takeFault f = s.takeFault g := ⟨f, rfl⟩
    simp [hself]
  · obtain ⟨u, rfl⟩ : ∃ u, t = graft i s u := ⟨t, ht⟩
    clear h ht
    cases i <;> simp [graft]

/-- Where a write of one register changes VF, VF is the register written. -/
theorem eq_flag_of_setV_ne {s : State} {x : Reg} {b : Byte} (h : (s.setV x b).getV 15 ≠ s.getV 15) : x = 15 := by
  by_contra hx
  exact h (State.getV_setV_ne (Ne.symm hx) s b)

/-- A bulk load up to VX leaves VF unless X is 15. -/
theorem eq_flag_of_writeRegsFrom_ne {v : Vector Byte 16} {x : Reg} {bs : List Byte} (hlen : bs.length = x.val + 1)
    (h : (writeRegsFrom v 0 bs)[15] ≠ v[15]) : x = 15 := by
  by_contra hx
  have hval : x.val ≠ 15 := fun hval => hx (Fin.ext hval)
  have hout : ¬ (0 ≤ 15 ∧ 15 - 0 < bs.length) := by omega
  exact h (by rw [getElem_writeRegsFrom, dif_neg hout])

/-- Settles O15: an instruction that may write registers writes a flag or names the one register it writes; any other
leaves them all. -/
theorem flagWritersAreTheNamedOnes : Obligations.FlagWritersAreTheNamedOnes := by
  intro i s t h hne
  cases i with
  | addReg x y | subReg x y | shr x y | shl x y | subn x y => exact .inl ⟨x, y, by simp⟩
  | drw x y n => exact .inr (.inl ⟨x, y, n, rfl⟩)
  | ldImm x nn | addImm x nn | rnd x nn =>
    cases h
    obtain rfl := eq_flag_of_setV_ne hne
    exact .inr (.inr (.inl ⟨nn, by simp⟩))
  | ldReg x y | orReg x y | andReg x y | xorReg x y =>
    cases h
    obtain rfl := eq_flag_of_setV_ne hne
    exact .inr (.inr (.inr (.inl ⟨y, by simp⟩)))
  | ldFromDt x =>
    cases h
    obtain rfl := eq_flag_of_setV_ne hne
    simp
  | loadRegs x =>
    rcases withRangeAtI_inv h with ⟨f, rfl, _⟩ | rfl
    · exact absurd rfl hne
    · obtain rfl := eq_flag_of_writeRegsFrom_ne (Memory.length_readBytes ..) hne
      simp
  | ldKey x =>
    rcases exec_ldKey_inv h with rfl | ⟨k, ks, rfl⟩
    · exact absurd rfl hne
    · obtain rfl := eq_flag_of_setV_ne hne
      simp
  | _ =>
    rcases exec_cases h with ⟨f, rfl, _⟩ | ht
    · exact absurd rfl hne
    · exact absurd (congrArg (State.getV · 15) ht) hne

end Sys2Proof.Machine
end

section
/-!
PROOFS. The step (70_reset_and_hazards.md R410, 60_exceptions.md R310, R311): what a running step does by what the fetch and
the decoder find at pc, and the host's placing of the next word.
-/

namespace Sys2Proof.Machine

/-! ## The end of a step (R195, R301) -/

theorem finishStep_of_faulted {t : State} {f : Fault} (h : t.status = .faulted f) :
    finishStep (.next t) = .next t := by
  rw [finishStep_next, h]

theorem finishStep_of_not_faulted {t : State} (h : ∀ f, t.status ≠ .faulted f) :
    finishStep (.next t) = .next t.tickPerStep := by
  rw [finishStep_next]
  split
  · exact absurd ‹_› (h _)
  · rfl

theorem State.tickPerStep_of_perStep {s : State} (h : s.cfg.timerPolicy = .perStep) : s.tickPerStep = s.timerTick := by
  unfold State.tickPerStep
  rw [h]

theorem State.tickPerStep_of_externalTick {s : State} (h : s.cfg.timerPolicy = .externalTick) : s.tickPerStep = s := by
  unfold State.tickPerStep
  rw [h]

/-! ## A running step by what is at pc -/

theorem runStep_of_fetch_error {s : State} {f : Fault} (h : fetch s = .error f) : runStep s = .next (s.takeFault f) := by
  unfold runStep
  rw [h]

theorem runStep_of_unknown {s : State} (hfetch : Fetchable s) (hdecode : decodeWord s.cfg.hasSubn (wordAtPc s) = none) :
    runStep s = .next (s.takeFault (.unknownInstruction s.pc (wordAtPc s))) := by
  unfold runStep
  simp only [fetch_of_fetchable hfetch, hdecode]

theorem runStep_of_decodes {s : State} {i : Instr} (hfetch : Fetchable s)
    (hdecode : decodeWord s.cfg.hasSubn (wordAtPc s) = some i) : runStep s = finishStep (exec i s) := by
  unfold runStep
  simp only [fetch_of_fetchable hfetch, hdecode]

/-! ## The word the host places (log entry 11) -/

theorem tableWord_encode (i : Instr) : tableWord 16 (encode i).toNat = encode i := by
  rw [tableWord, Nat.mod_eq_of_lt (encode i).isLt, BitVec.ofNat_toNat, BitVec.setWidth_eq]

/-- The block the host sets up for an instruction's word has that instruction. -/
theorem wellFormed_of_placed (hasSubn : Bool) (i : Instr) :
    i.wellFormed (hasSubn || ((decodeWord false (encode i)).isNone && (decodeWord true (encode i)).isSome)) = true := by
  cases i with
  | subn x y => simp [encode, decodeWord_family8, decodeFamily8, Instr.wellFormed]
  | _ => rfl

/-- Placing a word touches neither pc nor the alignment policy. -/
theorem fetchable_placeFetchWord {s : State} (h : Fetchable s) (nbits w : Nat) : Fetchable (placeFetchWord nbits w s) := h

theorem wordAtPc_placeFetchWord {s : State} (h : Fetchable s) (i : Instr) :
    wordAtPc (placeFetchWord 16 (encode i).toNat s) = encode i := by
  obtain ⟨_, hin⟩ := h
  have hmem : (placeFetchWord 16 (encode i).toNat s).mem = s.mem.writeBytes s.pc.toNat (bytesOfWord (encode i)) := by
    simp only [placeFetchWord, rangeFault_of_inside hin, Option.isNone_none, if_pos, tableWord_encode]
  have hread (k : Nat) (hk : k < (bytesOfWord (encode i)).length) :
      (s.mem.writeBytes s.pc.toNat (bytesOfWord (encode i))).read (s.pc.toNat + k) = (bytesOfWord (encode i))[k] :=
    Memory.read_writeBytes_of_lt hk
  unfold wordAtPc
  rw [hmem, show (placeFetchWord 16 (encode i).toNat s).pc = s.pc from rfl]
  exact (congrArg₂ wordOfBytes (hread 0 Nat.zero_lt_two) (hread 1 Nat.one_lt_two)).trans (wordOfBytes_bytes _)

/-! ## The obligations -/

/-- Settles O7: the step is the instruction and the end of the step, which ticks by policy unless a fault is on record. -/
theorem stepRunsDecodedInstruction : Obligations.StepRunsDecodedInstruction := by
  intro s t i hrun hfetch hdecode hexec
  have hstep : step s = finishStep (.next t) := by
    rw [step_of_running hrun, runStep_of_decodes hfetch hdecode, hexec]
  have hcfg : t.cfg = s.cfg := exec_cfg hexec
  rw [hstep]
  refine ⟨fun hok hpolicy => ?_, fun hok hpolicy => ?_, fun f hfault => finishStep_of_faulted hfault⟩
  · rw [finishStep_of_not_faulted hok, State.tickPerStep_of_perStep (hcfg ▸ hpolicy)]
  · rw [finishStep_of_not_faulted hok, State.tickPerStep_of_externalTick (hcfg ▸ hpolicy)]

/-- Settles O8: the placed word is the word at pc, and it decodes to the instruction in the block the host sets up. -/
theorem placedWordRunsNext : Obligations.PlacedWordRunsNext := by
  intro s i hfetch
  have hdecode := decodeOfEncodeGivesInstruction _ i (wellFormed_of_placed s.cfg.hasSubn i)
  rw [State.withFetchWord, step_of_running rfl]
  refine runStep_of_decodes (fetchable_placeFetchWord hfetch _ _) ?_
  rw [wordAtPc_placeFetchWord hfetch]
  simpa only [placeFetchWord, tableWord_encode] using hdecode

/-- Settles O9: the fetch checks alignment, then the range; the decoder sees a fetchable word only. -/
theorem fetchAndDecodeFaults : Obligations.FetchAndDecodeFaults := by
  intro s hrun
  rw [step_of_running hrun]
  refine ⟨fun hodd => ?_, fun haligned hout => ?_, fun hfetch hdecode => runStep_of_unknown hfetch hdecode⟩
  · exact runStep_of_fetch_error (by rw [fetch_eq, if_pos hodd])
  · exact runStep_of_fetch_error (by rw [fetch_eq, if_neg haligned, if_neg (show ¬ s.pc.toNat + 2 ≤ memSize from hout)])

/-- Settles O12: a wait and a running step each answer a next state; only a recorded fault is answered as a fault. -/
theorem stepAnswersFaultOnlyWhenFaulted : Obligations.StepAnswersFaultOnlyWhenFaulted := by
  intro s
  refine ⟨fun f hfault => step_of_faulted hfault, fun hok => ?_⟩
  cases hstatus : s.status with
  | faulted f => exact absurd hstatus (hok f)
  | awaitingKey x snap => exact ⟨_, step_of_awaiting hstatus⟩
  | running =>
    rw [step_of_running hstatus]
    rcases runStep_cases s with ⟨f, _, h⟩ | ⟨_, _, h⟩ | ⟨i, t, _, _, _, h⟩
    · exact ⟨_, h⟩
    · exact ⟨_, h⟩
    · exact ⟨_, h.trans (finishStep_next t)⟩

/-- The record of the fetch's fault names a place at fault. -/
theorem namesPlace_of_fetch_error {s : State} {f : Fault} (h : fetch s = .error f) : f.NamesPlace := by
  rw [fetch_eq] at h
  split at h
  · cases h
    exact And.left ‹_›
  · split at h <;> cases h
    have hin := s.pc.isLt
    simp only [outOfBoundsAt, Fault.NamesPlace, BitVec.toNat_ofNat, memSize]
    omega

/-- A fault that an instruction of a running state reports names that instruction. -/
theorem namesInstr_of_exec_faulted {i : Instr} {s t : State} {f : Fault} (hrun : s.status = .running)
    (hexec : exec i s = .next t) (hfault : t.status = .faulted f) : NamesInstr i s f := by
  rcases exec_cases hexec with ⟨g, rfl, hnames⟩ | ht
  · obtain rfl : g = f := Status.faulted.inj hfault
    exact hnames
  · cases i with
    | ldKey x =>
      rcases exec_ldKey_inv hexec with rfl | ⟨k, ks, rfl⟩
      · cases hfault
      · cases hrun.symm.trans hfault
    | _ =>
      have hkept : t.status = s.status := (congrArg State.status ht :)
      cases hrun.symm.trans (hkept.symm.trans hfault)

/-- The record of a raised fault: the fetch's fault has no word, and its pc is not fetchable; an unknown word is the word at
pc; an instruction's fault names the instruction, whose encoding is the word at pc. -/
theorem record_of_raised_fault {s t : State} {f : Fault} (hrun : s.status = .running) (hstep : step s = .next t)
    (hfault : t.status = .faulted f) :
    f.recordedPc = s.pc ∧ (∀ w, f.recordedWord = some w → Fetchable s ∧ w = wordAtPc s) ∧
      (f.recordedWord = none → ¬ Fetchable s) ∧ f.NamesPlace := by
  rw [step_of_running hrun] at hstep
  rcases runStep_cases s with ⟨g, hfetch, hnext⟩ | ⟨hfetch, _, hnext⟩ | ⟨i, u, hfetch, hdecode, hexec, hnext⟩
  · cases hnext.symm.trans hstep
    obtain rfl : g = f := Status.faulted.inj hfault
    obtain ⟨hnot, hpc, hword⟩ := fetch_error hfetch
    refine ⟨hpc, fun w hw => ?_, fun _ => hnot, namesPlace_of_fetch_error hfetch⟩
    cases hword.symm.trans hw
  · cases hnext.symm.trans hstep
    obtain rfl := Status.faulted.inj hfault
    exact ⟨rfl, fun w hw => ⟨hfetch, (Option.some.inj hw).symm⟩, nofun, trivial⟩
  · obtain rfl : t = u := eq_of_finishStep_faulted (hnext.symm.trans hstep) hfault
    obtain ⟨hpc, hword, hplace⟩ := namesInstr_of_exec_faulted hrun hexec hfault
    obtain ⟨hencode, _⟩ := encodeOfDecodeGivesWord _ _ _ hdecode
    rw [hencode] at hword
    refine ⟨hpc, fun w hw => ⟨hfetch, ?_⟩, fun hnone => ?_, hplace⟩
    · exact Option.some.inj (hw.symm.trans hword)
    · cases hnone.symm.trans hword

/-- Settles O11: the record of a raised fault, with its place at fault said kind by kind. -/
theorem faultRecordNamesTheInstruction : Obligations.FaultRecordNamesTheInstruction := by
  intro s t f hrun hstep hfault
  obtain ⟨hpc, hword, hnone, hplace⟩ := record_of_raised_fault hrun hstep hfault
  refine ⟨hpc, hword, hnone, ?_⟩
  cases f with
  | unknownInstruction | stackOverflow | stackUnderflow => rfl
  | outOfBoundsAddress | invalidKeyIndex => exact ⟨rfl, hplace⟩
  | misalignedFetch pc =>
    obtain rfl : pc = s.pc := hpc
    exact ⟨rfl, hplace⟩

/-- What a step that answers a next state can be: a step of a wait, a fault of the fetch or of the decoder, or the decoded
instruction and the end of the step. -/
theorem step_cases {s t : State} (h : step s = .next t) :
    (∃ x snap, s.status = .awaitingKey x snap ∧ t = waitStep x snap s) ∨
    (∃ f, s.status = .running ∧ t = s.takeFault f) ∨
    (∃ i u, s.status = .running ∧ Fetchable s ∧ decodeWord s.cfg.hasSubn (wordAtPc s) = some i ∧
      exec i s = .next u ∧ finishStep (.next u) = .next t) := by
  cases hstatus : s.status with
  | faulted f => cases (step_of_faulted hstatus).symm.trans h
  | awaitingKey x snap =>
    cases (step_of_awaiting hstatus).symm.trans h
    exact .inl ⟨x, snap, rfl, rfl⟩
  | running =>
    rw [step_of_running hstatus] at h
    rcases runStep_cases s with ⟨f, _, hnext⟩ | ⟨_, _, hnext⟩ | ⟨i, u, hfetch, hdecode, hexec, hnext⟩
    · cases hnext.symm.trans h
      exact .inr (.inl ⟨f, rfl, rfl⟩)
    · cases hnext.symm.trans h
      exact .inr (.inl ⟨_, rfl, rfl⟩)
    · exact .inr (.inr ⟨i, u, rfl, hfetch, hdecode, hexec, hnext.symm.trans h⟩)

end Sys2Proof.Machine
end

section
/-!
PROOFS. Control flow (40_control_flow.md R101 to R106): RET, CALL and the jumps with their frames, a RET after a CALL, and
the jump to itself.
-/

namespace Sys2Proof.Machine

/-- A new SP and a new pc leave every other part of the state as it was. -/
theorem unchanged_with_sp_pc (s : State) (n : Fin 17) (a : Word) : Unchanged [.sp, .pc] s { s with sp := n, pc := a } := by
  intro p hp
  obtain ⟨hsp, hpc⟩ : p ≠ .sp ∧ p ≠ .pc := by simpa using hp
  cases p with
  | sp => exact absurd rfl hsp
  | pc => exact absurd rfl hpc
  | regs | stack | mem => exact fun _ => rfl
  | fb => exact fun _ _ => rfl
  | index | dt | st | keys | status | params | draws => rfl

/-- A new SP, a new stack and a new pc leave every other part of the state as it was. -/
theorem unchanged_with_sp_stack_pc (s : State) (n : Fin 17) (k : Vector Word 16) (a : Word) :
    Unchanged [.sp, .stack, .pc] s { s with sp := n, stack := k, pc := a } := by
  intro p hp
  obtain ⟨hsp, hstack, hpc⟩ : p ≠ .sp ∧ p ≠ .stack ∧ p ≠ .pc := by simpa using hp
  cases p with
  | sp => exact absurd rfl hsp
  | stack => exact absurd rfl hstack
  | pc => exact absurd rfl hpc
  | regs | mem => exact fun _ => rfl
  | fb => exact fun _ _ => rfl
  | index | dt | st | keys | status | params | draws => rfl

theorem exec_jp (nnn : Addr) (s : State) : exec (.jp nnn) s = .next { s with pc := addrWord nnn } := rfl

theorem exec_jpV0 (nnn : Addr) (s : State) :
    exec (.jpV0 nnn) s = .next { s with pc := addrWord nnn + byteWord (s.getV 0) } := rfl

/-- Settles O17: an active call is popped, an update of SP and pc alone; without one the underflow is reported. -/
theorem retPopsOrUnderflows : Obligations.RetPopsOrUnderflows := by
  intro s
  refine ⟨fun hactive => ?_, fun hempty => exec_ret_of_empty hempty⟩
  refine ⟨_, exec_ret_of_active hactive, Nat.sub_one_add_one hactive, Vector.getElem?_eq_getElem _, ?_⟩
  exact unchanged_with_sp_pc s _ _

/-- Settles O18: with room for it the return address is pushed, an update of SP, the stack and pc alone; without room the
overflow is reported. -/
theorem callPushesOrOverflows : Obligations.CallPushesOrOverflows := by
  intro nnn s
  refine ⟨fun hroom => ?_, fun hfull => exec_call_of_full hfull nnn⟩
  refine ⟨_, exec_call_of_room (sp_lt_of_ne hroom) nnn, ?_, fun j hj => ?_, rfl, addrWord_toNat nnn, ?_⟩
  · exact Vector.getElem?_set_self (sp_lt_of_ne hroom)
  · exact Vector.getElem?_set_ne (sp_lt_of_ne hroom) (Ne.symm hj)
  · exact unchanged_with_sp_stack_pc s _ _ _

/-- Settles O19: the slot RET pops is the one CALL wrote. -/
theorem retAfterCallReturnsPastTheCall : Obligations.RetAfterCallReturnsPastTheCall := by
  intro nnn s t u hroom hcall hsp hstack
  rw [exec_call_of_room (sp_lt_of_ne hroom)] at hcall
  cases hcall
  have hval : u.sp.val = s.sp.val + 1 := congrArg Fin.val hsp
  have hactive : u.sp.val ≠ 0 := by omega
  refine ⟨_, exec_ret_of_active hactive, ?_, Fin.ext (by simp [hval])⟩
  simp [hstack, hval]

/-- Settles O20: both are an update of pc alone, and no sum wraps. -/
theorem jumpsSetPcOnly : Obligations.JumpsSetPcOnly := by
  intro nnn s
  refine ⟨⟨_, exec_jp nnn s, addrWord_toNat nnn, ?_⟩,
    ⟨_, exec_jpV0 nnn s, addrWord_add_byteWord_toNat nnn _, ?_⟩⟩
  · exact unchanged_with_pc s _
  · exact unchanged_with_pc s _

theorem tickPerStep_eq_with_timers (s : State) :
    s.tickPerStep = { s with dt := s.tickPerStep.dt, st := s.tickPerStep.st } := by
  unfold State.tickPerStep
  cases s.cfg.timerPolicy with
  | perStep | externalTick => rfl

/-- Settles O21: the jump writes the pc it finds, so the instruction leaves the whole state, and the step only ticks. -/
theorem selfJumpChangesOnlyTimers : Obligations.SelfJumpChangesOnlyTimers := by
  intro s nnn hrun hfetch hword hpc
  have hself : addrWord nnn = s.pc := BitVec.eq_of_toNat_eq ((addrWord_toNat nnn).trans hpc.symm)
  have hexec : exec (.jp nnn) s = .next s := by rw [exec_jp, hself]
  have hstep : step s = .next s.tickPerStep := by
    rw [step_of_running hrun, runStep_of_decodes hfetch (hword ▸ decodeWord_jp _ nnn), hexec,
      finishStep_of_not_faulted fun f hfault => by cases hrun.symm.trans hfault]
  exact ⟨_, hstep, tickPerStep_eq_with_timers s, State.tickPerStep_of_externalTick⟩

end Sys2Proof.Machine
end

section
/-!
PROOFS. Register operations (42_register_ops.md R143 to R152) and RND (45_random.md R201): the bitwise operations, the
reverse subtract, the shifts, and the byte drawn.
-/

namespace Sys2Proof.Machine

theorem exec_orReg (x y : Reg) (s : State) :
    exec (.orReg x y) s = .next (s.setV x (s.getV x ||| s.getV y)).advance := rfl

theorem exec_andReg (x y : Reg) (s : State) :
    exec (.andReg x y) s = .next (s.setV x (s.getV x &&& s.getV y)).advance := rfl

theorem exec_xorReg (x y : Reg) (s : State) :
    exec (.xorReg x y) s = .next (s.setV x (s.getV x ^^^ s.getV y)).advance := rfl

theorem exec_subn (x y : Reg) (s : State) :
    exec (.subn x y) s =
      .next (writeResultAndFlag x (s.getV y - s.getV x) (notBorrowFlag (s.getV y) (s.getV x)) s).advance := rfl

theorem exec_shr (x y : Reg) (s : State) :
    exec (.shr x y) s =
      .next (writeResultAndFlag x (shiftOperand x y s >>> 1) (shrFlag (shiftOperand x y s)) s).advance := rfl

theorem exec_shl (x y : Reg) (s : State) :
    exec (.shl x y) s =
      .next (writeResultAndFlag x (shiftOperand x y s <<< 1) (shlFlag (shiftOperand x y s)) s).advance := rfl

theorem exec_rnd (x : Reg) (nn : Byte) (s : State) :
    exec (.rnd x nn) s = .next { s.setV x (Config.drawByte s.draws &&& nn) with draws := s.draws + 1 }.advance := rfl

/-- An instruction that writes one register by a function of bits has each of its bits so. -/
theorem bits_of_exec {i : Instr} {s : State} {x : Reg} {b : Byte} {bit : Nat → Bool}
    (hexec : exec i s = .next (s.setV x b).advance) (hbit : ∀ k, b.getLsbD k = bit k) :
    ∃ t, exec i s = .next t ∧ (∀ k < 8, (t.getV x).getLsbD k = bit k) ∧ RegsUnchanged [x] s t ∧ t.pc = s.pc + 2 ∧
      Unchanged [.regs, .pc] s t := by
  obtain ⟨t, ht, rfl, hframe⟩ := register_write_of_exec hexec
  exact ⟨t, ht, fun k _ => hbit k, hframe⟩

/-- Settles O26: each writes one register, whose bits are those of the two operands combined. -/
theorem bitwiseOperations : Obligations.BitwiseOperations := by
  intro x y s
  refine ⟨?_, ?_, ?_⟩
  · exact bits_of_exec (exec_orReg x y s) fun _ => BitVec.getLsbD_or
  · exact bits_of_exec (exec_andReg x y s) fun _ => BitVec.getLsbD_and
  · exact bits_of_exec (exec_xorReg x y s) fun _ => BitVec.getLsbD_xor

theorem decodeWord_subn (hasSubn : Bool) (x y : Reg) :
    decodeWord hasSubn (formatXY 0x8#4 x y 0x7#4) = if hasSubn then some (.subn x y) else none :=
  decodeWord_family8 hasSubn x y 0x7#4

/-- Settles O29: it writes the reversed difference with its not-borrow as a result and its flag; without the parameter its
word is one that does not decode. -/
theorem subnReversesAndIsOptional : Obligations.SubnReversesAndIsOptional := by
  intro x y s
  refine ⟨?_, decodeWord_subn _ x y, fun hrun hfetch hword habsent => ?_⟩
  · rw [← sub_eq_ofNat_mod, ← notBorrowFlag_eq]
    exact result_and_flag_of_exec (exec_subn x y s)
  · rw [step_of_running hrun]
    refine runStep_of_unknown hfetch ?_
    rw [hword, habsent]
    exact decodeWord_subn false x y

/-! ## The shifts as numbers -/

theorem shiftRight_one_eq_ofNat (a : Byte) : a >>> 1 = BitVec.ofNat 8 (a.toNat / 2) := by
  have ha := a.isLt
  apply BitVec.eq_of_toNat_eq
  rw [BitVec.toNat_ushiftRight, BitVec.toNat_ofNat, Nat.shiftRight_eq_div_pow]
  omega

theorem shiftLeft_one_eq_ofNat (a : Byte) : a <<< 1 = BitVec.ofNat 8 (a.toNat * 2 % 256) := by
  apply BitVec.eq_of_toNat_eq
  rw [BitVec.toNat_shiftLeft, BitVec.toNat_ofNat, Nat.shiftLeft_eq]
  omega

theorem flagByte_eq_ofNat (b : Bool) : flagByte b = BitVec.ofNat 8 b.toNat := by
  cases b with
  | false | true => rfl

theorem shrFlag_eq_ofNat (a : Byte) : shrFlag a = BitVec.ofNat 8 (a.toNat % 2) := by
  rw [shrFlag, flagByte_eq_ofNat, BitVec.getLsbD, Nat.toNat_testBit, Nat.pow_zero, Nat.div_one]

theorem shlFlag_eq_ofNat (a : Byte) : shlFlag a = BitVec.ofNat 8 (a.toNat / 128) := by
  have ha := a.isLt
  rw [shlFlag, flagByte_eq_ofNat, BitVec.getLsbD, Nat.toNat_testBit]
  congr 1
  omega

/-- Settles O30: each writes the shifted operand with the bit shifted out as a result and its flag. -/
theorem shiftsMoveOneBitIntoFlag : Obligations.ShiftsMoveOneBitIntoFlag := by
  intro x y s a hsource
  have hoperand : shiftOperand x y s = a := by
    unfold shiftOperand
    rcases hsource with ⟨h, rfl⟩ | ⟨h, rfl⟩
    · rw [h]
    · rw [h]
  rw [← shiftRight_one_eq_ofNat, ← shiftLeft_one_eq_ofNat, ← shrFlag_eq_ofNat, ← shlFlag_eq_ofNat, ← hoperand]
  exact ⟨result_and_flag_of_exec (exec_shr x y s), result_and_flag_of_exec (exec_shl x y s)⟩

/-- A new counter of draws leaves every other part of the state as it was. -/
theorem unchanged_with_draws (s : State) (n : Nat) : Unchanged [.draws] s { s with draws := n } := by
  intro p hp
  cases p with
  | draws => exact absurd (List.mem_singleton_self _) hp
  | regs | stack | mem => exact fun _ => rfl
  | fb => exact fun _ _ => rfl
  | index | pc | sp | dt | st | keys | status | params => rfl

/-- Settles O39: it writes one register, the drawn byte under the mask, and takes one draw. -/
theorem randomByteIsMasked : Obligations.RandomByteIsMasked := by
  intro x nn s
  have hx : (s.setV x (Config.drawByte s.draws &&& nn)).getV x = Config.drawByte s.draws &&& nn :=
    State.getV_setV_self s x _
  refine ⟨_, exec_rnd x nn s, hx, ?_, regsUnchanged_setV s x _, State.advance_pc _, rfl, ?_⟩
  · refine (congrArg (· &&& ~~~nn) hx).trans ?_
    rw [BitVec.and_assoc, BitVec.and_not_self]
    exact BitVec.and_zero
  · exact (unchanged_with_v s _).advance.trans (unchanged_with_draws _ _)

end Sys2Proof.Machine
end

section
/-!
PROOFS. I and the bulk load (43_memory_index.md R170 to R176), and what the fetch reads of stored bytes (20_memory.md R68).
-/

namespace Sys2Proof.Machine

/-- A new I leaves every other part of the state as it was. -/
theorem unchanged_with_index (s : State) (a : Word) : Unchanged [.index] s { s with i := a } := by
  intro p hp
  cases p with
  | index => exact absurd (List.mem_singleton_self _) hp
  | regs | stack | mem => exact fun _ => rfl
  | fb => exact fun _ _ => rfl
  | pc | sp | dt | st | keys | status | params | draws => rfl

theorem exec_ldI (nnn : Addr) (s : State) : exec (.ldI nnn) s = .next { s with i := addrWord nnn }.advance := rfl

theorem exec_addI (x : Reg) (s : State) :
    exec (.addI x) s = .next { s with i := s.i + byteWord (s.getV x) }.advance := rfl

theorem exec_ldF (x : Reg) (s : State) : exec (.ldF x) s = .next { s with i := glyphAddress (s.getV x) }.advance := rfl

/-- Five times a byte does not wrap at 16 bits. -/
theorem glyphAddress_toNat (b : Byte) : (glyphAddress b).toNat = 5 * b.toNat := by
  have hb := b.isLt
  rw [glyphAddress, BitVec.toNat_ofNat]
  omega

/-- An instruction that answers `{ s with i := a }.advance` leaves `a` in I and writes I and pc alone. -/
theorem index_write_of_exec {i : Instr} {s : State} {a : Word} {n : Nat}
    (hexec : exec i s = .next { s with i := a }.advance) (ha : a.toNat = n) :
    ∃ t, exec i s = .next t ∧ t.i.toNat = n ∧ t.pc = s.pc + 2 ∧ Unchanged [.index, .pc] s t :=
  ⟨_, hexec, ha, State.advance_pc _, (unchanged_with_index s a).advance⟩

/-- Settles O31: each is an update of I alone and the advance of pc, with no check. -/
theorem indexWrites : Obligations.IndexWrites := by
  intro nnn x s
  refine ⟨?_, ?_, ?_⟩
  · exact index_write_of_exec (exec_ldI nnn s) (addrWord_toNat nnn)
  · exact index_write_of_exec (exec_addI x s) (by rw [BitVec.toNat_add, byteWord_toNat])
  · exact index_write_of_exec (exec_ldF x s) (glyphAddress_toNat _)

/-! ## The bulk load (R176) -/

theorem exec_loadRegs_of_inside {x : Reg} {s : State} (h : InMemory s.i (x.val + 1)) :
    exec (.loadRegs x) s =
      .next { s with
        v := writeRegsFrom s.v 0 (s.mem.readBytes s.i.toNat (x.val + 1))
        i := s.i + BitVec.ofNat 16 (x.val + 1) }.advance :=
  withRangeAtI_of_inside h _ _

theorem exec_loadRegs_of_outside {x : Reg} {s : State} (h : ¬ InMemory s.i (x.val + 1)) :
    exec (.loadRegs x) s = .next (s.takeFault (outOfBoundsAt s (some (encode (.loadRegs x))) s.i)) :=
  withRangeAtI_of_outside (Nat.succ_ne_zero _) h _ _

/-- Register k after a bulk load of `n` bytes: the byte at `a + k` for the first `n`, else what it was. -/
theorem getElem_writeRegsFrom_readBytes (v : Vector Byte 16) (m : Memory) (a n : Nat) (k : Reg) :
    (writeRegsFrom v 0 (m.readBytes a n))[k.val] = if k.val < n then m.read (a + k.val) else v[k.val] := by
  rw [getElem_writeRegsFrom]
  simp

/-- Settles O34: inside memory it is a bulk write of the registers and a move of I that does not wrap, outside it the range
fault. -/
theorem bulkLoadReadsRegisters : Obligations.BulkLoadReadsRegisters := by
  intro x s
  refine ⟨fun hin => ?_, fun hout => exec_loadRegs_of_outside hout⟩
  refine ⟨_, exec_loadRegs_of_inside hin, fun k hk => ?_, fun k hk => ?_, ?_, State.advance_pc _, ?_⟩
  · exact (getElem_writeRegsFrom_readBytes _ _ _ _ k).trans (if_pos (Nat.lt_succ_of_le hk))
  · exact (getElem_writeRegsFrom_readBytes _ _ _ _ k).trans (if_neg (Nat.not_lt.mpr hk))
  · exact index_add_toNat_of_inMemory hin
  · exact ((unchanged_with_v s _).trans (unchanged_with_index _ _)).advance

/-- Settles O35: the fetch reads memory at the moment it is made, and the two bytes there are the stored registers. -/
theorem storedBytesAreFetched : Obligations.StoredBytesAreFetched := by
  intro x k j s t u hin hexec hmem hj hjx hpc hfetch
  cases (exec_storeRegs_of_inside hin).symm.trans hexec
  have hstored (q : Reg) (hq : q.val ≤ x.val) : u.mem.read (s.i.toNat + q.val) = s.getV q := by
    have hlt : q.val < (regsUpTo x s).length := by rw [length_regsUpTo]; omega
    rw [hmem]
    exact (Memory.read_writeBytes_of_lt hlt).trans (getElem_regsUpTo x q s hlt)
  rw [fetch_of_fetchable hfetch, wordAtPc, hpc, hstored k (by omega), Nat.add_assoc, ← hj, hstored j hjx]
  rfl

end Sys2Proof.Machine
end

section
/-!
PROOFS. Draw (46_draw.md R210 to R217): the faults of DRW, what a draw leaves, and the same sprite drawn twice.
-/

namespace Sys2Proof.Machine

/-- A new framebuffer and new registers leave every other part of the state as it was. -/
theorem unchanged_composite (col row : Byte) (h : Nat) (s : State) : Unchanged [.fb, .regs] s (composite col row h s) :=
  (unchanged_with_fb s _).trans (unchanged_with_v _ _)

/-- A draw writes VF alone of the registers. -/
theorem regsUnchanged_composite (col row : Byte) (h : Nat) (s : State) : RegsUnchanged [15] s (composite col row h s) :=
  fun _ hr => State.getV_setV_ne (List.ne_of_not_mem_cons hr) _ _

/-- Settles O42: the height is checked first, then the range. -/
theorem drawFaults : Obligations.DrawFaults := by
  intro x y n s
  refine ⟨fun hn hpolicy => if_pos ⟨hn, hpolicy⟩, fun hn hout => ?_⟩
  have hheight : ¬ (n = 0 ∧ s.cfg.drawH0 = .fault) := fun h => hn h.1
  simp only [exec, execDrw, if_neg hheight]
  exact withRangeAtI_of_outside (BitVec.toNat_ne_iff_ne.mpr hn) hout _ _

/-- Settles O40: a draw that runs is the compositor, an update of the framebuffer and VF, and the advance of pc. -/
theorem drawXorsSprite : Obligations.DrawXorsSprite := by
  intro x y n s hruns
  obtain ⟨hone, hzero⟩ := composite_getV (s.getV x) (s.getV y) n s 15
  exact ⟨_, exec_drw_of_runs hruns x y, composite_pixel _ _ _ _, hone, hzero, regsUnchanged_composite _ _ _ _,
    State.advance_pc _, (unchanged_composite _ _ _ _).advance⟩

/-! ## The same sprite twice (R217) -/

/-- What a sprite covers depends on I and memory alone. -/
theorem spriteCovers_congr {s u : State} (hi : u.i = s.i) (hmem : u.mem = s.mem) (col row : Byte) (h : Nat) (r : Fin 32)
    (q : Fin 64) : SpriteCovers u col row h r q ↔ SpriteCovers s col row h r q := by
  unfold SpriteCovers
  rw [hi, hmem]

/-- Whether a draw runs depends on I and the parameters alone. -/
theorem drawRuns_congr {n : Nibble} {s u : State} (hi : u.i = s.i) (hcfg : u.cfg = s.cfg) :
    DrawRuns n u ↔ DrawRuns n s := by
  unfold DrawRuns
  rw [hi, hcfg]

/-- A second XOR with the same sprite undoes the first. -/
theorem composite_pixel_twice {col row : Byte} {n : Nibble} {s u : State} (hi : u.i = s.i) (hmem : u.mem = s.mem)
    (hfb : u.fb = (composite col row n.toNat s).fb) (r : Fin 32) (q : Fin 64) :
    (composite col row n.toNat u).fb.pixel r q = s.fb.pixel r q := by
  rw [Bool.eq_iff_iff, composite_pixel, hfb, composite_pixel, spriteCovers_congr hi hmem]
  tauto

/-- The second draw meets a set pixel under a set bit exactly where the first turned a pixel on. -/
theorem collides_twice_iff {col row : Byte} {n : Nibble} {s u : State} (hi : u.i = s.i) (hmem : u.mem = s.mem)
    (hfb : u.fb = (composite col row n.toNat s).fb) (r : Fin 32) (q : Fin 64) :
    (u.fb.pixel r q = true ∧ SpriteCovers u col row n.toNat r q) ↔
      (s.fb.pixel r q = false ∧ (composite col row n.toNat s).fb.pixel r q = true) := by
  rw [hfb, spriteCovers_congr hi hmem, composite_pixel, ← Bool.not_eq_true]
  tauto

/-- Settles O43: the second draw XORs the same sprite into the framebuffer the first left. -/
theorem drawingTwiceRestores : Obligations.DrawingTwiceRestores := by
  intro x y n s t u hruns hfirst hfb hi hmem hcfg hx hy
  cases (exec_drw_of_runs hruns x y).symm.trans hfirst
  obtain ⟨hone, hzero⟩ := composite_getV (s.getV x) (s.getV y) n u 15
  have hsecond := exec_drw_of_runs ((drawRuns_congr hi hcfg).mpr hruns) x y
  rw [hx, hy] at hsecond
  refine ⟨_, hsecond, Framebuffer.ext_pixel (composite_pixel_twice hi hmem hfb), fun hset => hone ?_,
    fun hnone => hzero ?_⟩
  · obtain ⟨r, c, hclear⟩ := hset
    exact ⟨r, c, (collides_twice_iff hi hmem hfb r c).mpr hclear⟩
  · rintro ⟨r, c, hcollides⟩
    obtain ⟨hclear, hset⟩ := (collides_twice_iff hi hmem hfb r c).mp hcollides
    exact absurd (hnone r c hset) (Bool.eq_false_iff.mp hclear)

end Sys2Proof.Machine
end

section
/-!
PROOFS. Key input (47_key_input.md R230 to R238): the key skips, the capture of a key, FX0A and the step of its wait; and the
timers under `external_tick` (44_timers.md R194).
-/

namespace Sys2Proof.Machine

/-! ## The key skips -/

theorem exec_skp (x : Reg) (s : State) : exec (.skp x) s = skipOnKey (.skp x) x true s := rfl

theorem exec_sknp (x : Reg) (s : State) : exec (.sknp x) s = skipOnKey (.sknp x) x false s := rfl

theorem skipOnKey_of_key {x k : Reg} {s : State} (h : (s.getV x).toNat = k.val) (instr : Instr) (want : Bool) :
    skipOnKey instr x want s = .next (s.skipIf (s.keys.getLsbD k.val == want)) := by
  have hlt : (s.getV x).toNat < 16 := h ▸ k.isLt
  obtain rfl : (⟨(s.getV x).toNat, hlt⟩ : Reg) = k := Fin.ext h
  unfold skipOnKey
  rw [keyOfByte_of_lt hlt]
  rfl

theorem skipOnKey_of_invalid {x : Reg} {s : State} (h : 15 < (s.getV x).toNat) (instr : Instr) (want : Bool) :
    skipOnKey instr x want s = .next (s.takeFault (.invalidKeyIndex s.pc (encode instr) (s.getV x))) := by
  unfold skipOnKey
  rw [keyOfByte_of_ge (Nat.not_lt.mpr h)]

/-- Settles O44: each is a skip by the state of the key VX names, and a fault where VX names none. -/
theorem keySkips : Obligations.KeySkips := by
  intro x k s
  refine ⟨fun hkey => ⟨?_, ?_⟩, fun hinvalid => ⟨?_, ?_⟩⟩
  · exact skip_of_exec_eq_skipIf ((exec_skp x s).trans (skipOnKey_of_key hkey _ _)) beq_iff_eq.mpr
      (fun hup => by rw [hup]; rfl)
  · exact skip_of_exec_eq_skipIf ((exec_sknp x s).trans (skipOnKey_of_key hkey _ _)) beq_iff_eq.mpr
      (fun hdown => by rw [hdown]; rfl)
  · exact skipOnKey_of_invalid hinvalid _ _
  · exact skipOnKey_of_invalid hinvalid _ _

/-! ## The capture of a key (R233, R236) -/

/-- A new Status leaves every other part of the state as it was. -/
theorem unchanged_with_status (s : State) (c : Status) : Unchanged [.status] s { s with status := c } := by
  intro p hp
  cases p with
  | status => exact absurd (List.mem_singleton_self _) hp
  | regs | stack | mem => exact fun _ => rfl
  | fb => exact fun _ _ => rfl
  | index | pc | sp | dt | st | keys | params | draws => rfl

theorem unchanged_captureKey (x k : Reg) (ks : List Reg) (s : State) :
    Unchanged [.regs, .pc, .draws] s (captureKey x k ks s) :=
  (unchanged_with_v s _).advance.trans (unchanged_with_draws _ _)

theorem regsUnchanged_captureKey (x k : Reg) (ks : List Reg) (s : State) : RegsUnchanged [x] s (captureKey x k ks s) :=
  regsUnchanged_setV s x _

/-- The number captured is that of a newly pressed key. -/
theorem captured_key_is_new {snap : KeyVector} {k : Reg} {ks : List Reg} {s : State} (h : newKeys s.keys snap = k :: ks)
    (x : Reg) : ∃ c : Reg, s.keys.getLsbD c.val = true ∧ snap.getLsbD c.val = false ∧
      ((captureKey x k ks s).getV x).toNat = c.val := by
  have hmem := chooseKey_mem (Config.drawChoice s.draws) k ks
  rw [← h, mem_newKeys] at hmem
  obtain ⟨hdown, hnew⟩ := hmem
  refine ⟨_, hdown, hnew, ?_⟩
  rw [captureKey_getV, if_pos rfl, BitVec.toNat_ofNat]
  exact Nat.mod_eq_of_lt (Nat.lt_trans (Fin.isLt _) (by decide))

/-- Settles O47: the keys pressed and not in the snapshot are the members of the list, and a member is selected by its
place in it. -/
theorem everyNewKeyCanBeChosen : Obligations.EveryNewKeyCanBeChosen := by
  intro keys snap k c ks hnew
  rw [← mem_newKeys, hnew]
  constructor
  · intro hmem
    obtain ⟨n, hn, rfl⟩ := List.getElem_of_mem hmem
    refine ⟨n, ?_⟩
    simp only [chooseKey, Nat.mod_eq_of_lt hn]
  · rintro ⟨n, rfl⟩
    exact chooseKey_mem n k ks

/-! ## FX0A (R233, R234) -/

theorem firstSnapshot_of_edge {s : State} (h : s.cfg.keyWaitTrigger = .edge) : firstSnapshot s = s.keys := by
  unfold firstSnapshot
  rw [h]

theorem firstSnapshot_of_level {s : State} (h : s.cfg.keyWaitTrigger = .level) : firstSnapshot s = 0 := by
  unfold firstSnapshot
  rw [h]

/-- No key is new against a snapshot of the same keys. -/
theorem newKeys_self (keys : KeyVector) : newKeys keys keys = [] := newKeys_eq_nil_iff.mpr fun _ h => h

/-- Where some key is pressed, some key is new against the empty snapshot. -/
theorem newKeys_zero_ne_nil {keys : KeyVector} (h : keys ≠ 0) : newKeys keys 0 ≠ [] := by
  intro hnil
  rw [newKeys_eq_nil_iff] at hnil
  refine h (BitVec.eq_of_getLsbD_eq fun k hk => ?_)
  rw [Bool.eq_iff_iff]
  exact ⟨hnil ⟨k, hk⟩, fun hzero => by simp at hzero⟩

/-- Settles O45: the wait begins where no key is new against the first snapshot, and a new one is captured at once. -/
theorem waitForKeyInstruction : Obligations.WaitForKeyInstruction := by
  intro x s
  refine ⟨fun hedge => ?_, fun hlevel hkeys => ?_, fun hlevel hkeys => ?_⟩
  · have hsnap := firstSnapshot_of_edge hedge
    rw [exec_ldKey_of_none (by rw [hsnap, newKeys_self]), hsnap]
  · have hsnap := firstSnapshot_of_level hlevel
    rw [exec_ldKey_of_none (by rw [hsnap, hkeys, newKeys_self]), hsnap]
  · obtain ⟨k, ks, hnew⟩ := List.exists_cons_of_ne_nil (newKeys_zero_ne_nil hkeys)
    obtain ⟨c, hdown, _, hx⟩ := captured_key_is_new hnew x
    rw [← firstSnapshot_of_level hlevel] at hnew
    exact ⟨_, exec_ldKey_of_new hnew x, ⟨c, hdown, hx⟩, regsUnchanged_captureKey x k ks s,
      captureKey_pc .., captureKey_draws .., unchanged_captureKey x k ks s⟩

/-! ## The step of a wait (R235) -/

/-- The engine runs again. -/
def resume (s : State) : State := { s with status := .running }

theorem waitStep_of_none {snap : KeyVector} {s : State} (h : newKeys s.keys snap = []) (x : Reg) :
    waitStep x snap s = { s with status := .awaitingKey x (nextSnapshot snap s) } := by
  simp only [waitStep, h]

theorem waitStep_of_new {snap : KeyVector} {s : State} {k : Reg} {ks : List Reg} (h : newKeys s.keys snap = k :: ks)
    (x : Reg) : waitStep x snap s = (resume (captureKey x k ks s)).tickPerStep := by
  simp only [waitStep, h, resume]

/-- A step of a wait stays in it or captures a key and resumes. -/
theorem waitStep_cases (x : Reg) (snap : KeyVector) (s : State) :
    (newKeys s.keys snap = [] ∧ waitStep x snap s = { s with status := .awaitingKey x (nextSnapshot snap s) }) ∨
    ∃ k ks, newKeys s.keys snap = k :: ks ∧
      waitStep x snap s = (resume (captureKey x k ks s)).tickPerStep := by
  cases hnew : newKeys s.keys snap with
  | nil => exact .inl ⟨rfl, waitStep_of_none hnew x⟩
  | cons k ks => exact .inr ⟨k, ks, rfl, waitStep_of_new hnew x⟩

theorem nextSnapshot_of_edge {s : State} (h : s.cfg.keyWaitTrigger = .edge) (snap : KeyVector) :
    nextSnapshot snap s = s.keys := by
  unfold nextSnapshot
  rw [h]

theorem nextSnapshot_of_level {s : State} (h : s.cfg.keyWaitTrigger = .level) (snap : KeyVector) :
    nextSnapshot snap s = snap := by
  unfold nextSnapshot
  rw [h]

theorem unchanged_tickPerStep (s : State) : Unchanged [.dt, .st] s s.tickPerStep := by
  rw [tickPerStep_eq_with_timers]
  exact (unchanged_with_dt s s.tickPerStep.dt).trans (unchanged_with_st _ _)

/-- Settles O46: with no new key only the snapshot is refreshed; with one, the step is the capture, Status Running and the
tick of the policy. -/
theorem waitStepSuspendsOrResumes : Obligations.WaitStepSuspendsOrResumes := by
  intro x snap s hwait
  rw [step_of_awaiting hwait]
  refine ⟨fun hnone => ?_, fun k hdown hnew => ?_⟩
  · rw [waitStep_of_none (newKeys_eq_nil_iff.mpr hnone)]
    refine ⟨fun hedge => ?_, fun hlevel => ?_⟩
    · rw [nextSnapshot_of_edge hedge]
    · rw [nextSnapshot_of_level hlevel, ← hwait]
  · obtain ⟨c, cs, hkeys⟩ := List.exists_cons_of_ne_nil (List.ne_nil_of_mem (mem_newKeys.mpr ⟨hdown, hnew⟩))
    obtain ⟨d, hd, hdnew, hx⟩ := captured_key_is_new hkeys x
    refine ⟨_, congrArg _ (waitStep_of_new hkeys x), State.tickPerStep_status _, ⟨d, hd, hdnew, ?_⟩, fun r hr => ?_,
      State.tickPerStep_pc _, State.tickPerStep_draws _, fun hpolicy => ?_, fun hpolicy => ?_, ?_⟩
    · exact (congrArg BitVec.toNat (State.tickPerStep_getV _ x)).trans hx
    · exact (State.tickPerStep_getV _ r).trans (regsUnchanged_captureKey x c cs s r hr)
    · rw [State.tickPerStep_of_perStep (s := resume (captureKey x c cs s)) hpolicy]
      exact ⟨countdown_toNat _, countdown_toNat _⟩
    · rw [State.tickPerStep_of_externalTick (s := resume (captureKey x c cs s)) hpolicy]
      exact ⟨rfl, rfl⟩
    · exact ((unchanged_captureKey x c cs s).trans (unchanged_with_status _ _)).trans (unchanged_tickPerStep _)

/-- Settles O48: by induction on the number of steps; a step keeps the wait, and no key becomes new against the refreshed
snapshot. -/
theorem waitWithoutPressNeverEnds : Obligations.WaitWithoutPressNeverEnds := by
  intro n x snap s hwait hnone
  induction n generalizing snap s with
  | zero => exact ⟨snap, by rw [← hwait]; rfl⟩
  | succ n ih =>
    have hstep : BlockOp.step.apply s = { s with status := .awaitingKey x (nextSnapshot snap s) } := by
      simp only [BlockOp.apply, step_of_awaiting hwait, waitStep_of_none (newKeys_eq_nil_iff.mpr hnone)]
    have hnone' : ∀ k : Reg, s.keys.getLsbD k.val = true → (nextSnapshot snap s).getLsbD k.val = true := by
      cases hpolicy : s.cfg.keyWaitTrigger with
      | edge => rw [nextSnapshot_of_edge hpolicy]; exact fun _ h => h
      | level => rw [nextSnapshot_of_level hpolicy]; exact hnone
    obtain ⟨snap', hrun⟩ := ih (nextSnapshot snap s) (BlockOp.step.apply s) (by rw [hstep]) (by rw [hstep]; exact hnone')
    refine ⟨snap', hrun.trans ?_⟩
    rw [hstep]

/-! ## Timers under `external_tick` -/

/-- An instruction other than FX15 leaves DT, one other than FX18 leaves ST, and these two write their register there. -/
theorem timers_of_exec {i : Instr} {s t : State} (h : exec i s = .next t) :
    (t.dt ≠ s.dt → ∃ x, i = .ldDt x ∧ t.dt = s.getV x) ∧ (t.st ≠ s.st → ∃ x, i = .ldSt x ∧ t.st = s.getV x) := by
  obtain ⟨_, _, hdt, hst, _⟩ := writersOfEachPart i s t h
  refine ⟨fun hne => ?_, fun hne => ?_⟩
  · obtain ⟨x, rfl⟩ := hdt hne
    cases (exec_ldDt x s).symm.trans h
    exact ⟨x, rfl, rfl⟩
  · obtain ⟨x, rfl⟩ := hst hne
    cases (exec_ldSt x s).symm.trans h
    exact ⟨x, rfl, rfl⟩

/-- Under `external_tick` a step of a wait leaves both timers. -/
theorem timers_waitStep_of_externalTick {s : State} (h : s.cfg.timerPolicy = .externalTick) (x : Reg) (snap : KeyVector) :
    (waitStep x snap s).dt = s.dt ∧ (waitStep x snap s).st = s.st := by
  rcases waitStep_cases x snap s with ⟨_, hwait⟩ | ⟨k, ks, _, hwait⟩
  · rw [hwait]
    exact ⟨rfl, rfl⟩
  · rw [hwait, State.tickPerStep_of_externalTick (s := resume (captureKey x k ks s)) h]
    exact ⟨rfl, rfl⟩

/-- Under `external_tick` the end of a step adds nothing to the instruction. -/
theorem finishStep_of_externalTick {t : State} (h : t.cfg.timerPolicy = .externalTick) :
    finishStep (.next t) = .next t := by
  rw [finishStep_next, State.tickPerStep_of_externalTick h]
  split <;> rfl

/-- Settles O38: without a tick only the instruction at pc can change a timer. -/
theorem externalTickStepKeepsTimers : Obligations.ExternalTickStepKeepsTimers := by
  intro s t hpolicy hstep
  rcases step_cases hstep with ⟨x, snap, _, rfl⟩ | ⟨f, _, rfl⟩ | ⟨i, u, _, _, hdecode, hexec, hend⟩
  · obtain ⟨hdt, hst⟩ := timers_waitStep_of_externalTick hpolicy x snap
    exact ⟨fun hne => absurd hdt hne, fun hne => absurd hst hne⟩
  · exact ⟨fun hne => absurd rfl hne, fun hne => absurd rfl hne⟩
  · rw [finishStep_of_externalTick (by rw [exec_cfg hexec]; exact hpolicy)] at hend
    cases hend
    obtain ⟨hdt, hst⟩ := timers_of_exec hexec
    refine ⟨fun hne => ?_, fun hne => ?_⟩
    · obtain ⟨x, rfl, hx⟩ := hdt hne
      exact ⟨x, hdecode, hx⟩
    · obtain ⟨x, rfl, hx⟩ := hst hne
      exact ⟨x, hdecode, hx⟩

end Sys2Proof.Machine
end

section
/-!
PROOFS. Reset, Load, SetKeys and Tick60 (10_state.md R44, 70_reset_and_hazards.md R400 to R405, 44_timers.md R194): the glyph
bytes Reset writes, block writes in a row, and what each operation leaves.
-/

namespace Sys2Proof.Machine

/-! ## Block writes in a row -/

/-- The same block written twice is written once. -/
theorem Memory.writeBytes_twice {m : Memory} (h : m.wf) {a : Nat} {bs : List Byte} (ha : a + bs.length ≤ memSize) :
    (m.writeBytes a bs).writeBytes a bs = m.writeBytes a bs := by
  have hwf := Memory.writeBytes_wf h ha
  refine Memory.ext_of_wf (Memory.writeBytes_wf hwf ha) hwf fun b => ?_
  rw [Memory.read_writeBytes]
  split
  · rw [Memory.read_writeBytes, dif_pos ‹_›]
  · rfl

/-- Blocks that do not meet may be written in either order. -/
theorem Memory.writeBytes_comm {m : Memory} (h : m.wf) {a a' : Nat} {bs bs' : List Byte} (hdisjoint : a + bs.length ≤ a')
    (ha' : a' + bs'.length ≤ memSize) :
    (m.writeBytes a bs).writeBytes a' bs' = (m.writeBytes a' bs').writeBytes a bs := by
  have ha : a + bs.length ≤ memSize := by omega
  refine Memory.ext_of_wf (Memory.writeBytes_wf (Memory.writeBytes_wf h ha) ha')
    (Memory.writeBytes_wf (Memory.writeBytes_wf h ha') ha) fun b => ?_
  by_cases hlow : b < a'
  · rw [Memory.read_writeBytes_outside (.inl hlow), Memory.read_writeBytes, Memory.read_writeBytes,
      Memory.read_writeBytes_outside (.inl hlow)]
  · have hout : a + bs.length ≤ b := by omega
    rw [Memory.read_writeBytes_outside (m := m.writeBytes a' bs') (.inr hout), Memory.read_writeBytes (m.writeBytes a bs) a',
      Memory.read_writeBytes m a', Memory.read_writeBytes_outside (.inr hout)]

/-! ## The glyph bytes -/

/-- Memory with the glyph bytes at 0x000 to 0x04F. -/
theorem read_writeBytes_font (m : Memory) (font : Font) (a : Nat) :
    (m.writeBytes 0 font.toList).read a = if h : a < 80 then font[a] else m.read a := by
  rw [Memory.read_writeBytes]
  simp

/-! ## Reset (R400, R401) -/

theorem resetMachine_mem (s : State) : (resetMachine s).mem = s.mem.writeBytes 0 s.cfg.font.toList := rfl

/-- Settles O49: Reset writes constants, and the glyph bytes into memory. -/
theorem resetLeavesResetValues : Obligations.ResetLeavesResetValues := by
  intro s
  refine ⟨fun r => ?_, rfl, rfl, rfl, rfl, rfl, Framebuffer.pixel_clear, rfl, rfl, fun a ha => ?_, fun a ha => ?_,
    fun p hp => ?_⟩
  · exact Vector.getElem_replicate r.isLt
  · rw [resetMachine_mem, read_writeBytes_font, dif_pos ha]
  · rw [resetMachine_mem, read_writeBytes_font, dif_neg (Nat.not_lt.mpr ha)]
  · cases p with
    | stack => exact fun _ => rfl
    | params | draws => rfl
    | _ => exact absurd hp (by simp)

/-- Settles O50: the second Reset writes the same constants, and the same block of glyph bytes. -/
theorem resetIsIdempotent : Obligations.ResetIsIdempotent := by
  intro s hwf
  have hmem : (resetMachine (resetMachine s)).mem = (resetMachine s).mem :=
    Memory.writeBytes_twice hwf (by rw [Vector.length_toList]; decide)
  exact congrArg (fun m => { resetMachine s with mem := m }) hmem

theorem boot_eq (params : Params) :
    boot params = { State.reset with mem := zeroMemory.writeBytes 0 params.font.toList, cfg := params } := by
  simp only [boot, resetMachine, State.created, State.reset, Framebuffer.clear]

/-- Over the memory of creation, the default glyph bytes make every address read as it does unlisted. -/
theorem zeroMemory_writeBytes_defaultFont : zeroMemory.writeBytes 0 defaultFont.toList = [] := by
  have hwf := Memory.writeBytes_wf zeroMemory_wf (a := 0) (bs := defaultFont.toList) (by rw [Vector.length_toList]; decide)
  refine Memory.ext_of_wf hwf reset_memory_wf fun a => ?_
  rw [read_writeBytes_font, Memory.read, Memory.unlisted]
  split
  · rfl
  · have hread : zeroMemory.read a = Memory.read [] a := Memory.read_writeBytes_outside (by simp; omega)
    rw [hread, Memory.read, Memory.unlisted, dif_neg ‹_›]

/-- Settles O51: the boot writes the values of State.reset, and its memory lists no byte. -/
theorem bootIsReset : Obligations.BootIsReset := by
  unfold Obligations.BootIsReset
  rw [boot_eq, show defaultParams.font = defaultFont from rfl, zeroMemory_writeBytes_defaultFont]
  rfl

/-- An image that Load accepts is copied. -/
theorem load_ok_inv {image : List Byte} {s t : State} (h : load image s = .ok t) :
    image.length ≤ maxImage ∧ t = { s with mem := s.mem.writeBytes progStart image } := by
  by_cases hfits : image.length ≤ maxImage
  · rw [load_of_length_le hfits] at h
    cases h
    exact ⟨hfits, rfl⟩
  · cases (load_of_maxImage_lt (Nat.not_le.mp hfits) s).symm.trans h

/-- Settles O53: the glyph bytes end below the program region, so the two block writes do not meet. -/
theorem resetAndLoadCommute : Obligations.ResetAndLoadCommute := by
  intro image s t hwf hload
  obtain ⟨hfits, rfl⟩ := load_ok_inv hload
  have hregion : progStart + maxImage = memSize := rfl
  have hmem := Memory.writeBytes_comm hwf (a := 0) (a' := progStart) (bs := s.cfg.font.toList) (bs' := image)
    (by rw [Vector.length_toList]; decide) (by omega)
  rw [load_of_length_le hfits, resetMachine_mem, hmem]
  rfl

/-! ## SetKeys and Tick60 -/

/-- New keys leave every other part of the state as it was. -/
theorem unchanged_setKeys (s : State) (k : KeyVector) : Unchanged [.keys] s (setKeys k s) := by
  intro p hp
  cases p with
  | keys => exact absurd (List.mem_singleton_self _) hp
  | regs | stack | mem => exact fun _ => rfl
  | fb => exact fun _ _ => rfl
  | index | pc | sp | dt | st | status | params | draws => rfl

theorem tick60_of_perStep {s : State} (h : s.cfg.timerPolicy = .perStep) : tick60 s = none := by
  unfold tick60
  rw [h]

theorem tick60_of_externalTick {s : State} (h : s.cfg.timerPolicy = .externalTick) : tick60 s = some s.timerTick := by
  unfold tick60
  rw [h]

theorem unchanged_timerTick (s : State) : Unchanged [.dt, .st] s s.timerTick :=
  (unchanged_with_dt s (countdown s.dt)).trans (unchanged_with_st _ _)

/-- Settles O54: SetKeys is an update of the keys alone, Tick60 a tick where the policy has it. -/
theorem setKeysAndTickSixty : Obligations.SetKeysAndTickSixty := by
  intro k s
  refine ⟨⟨rfl, unchanged_setKeys s k⟩, tick60_of_perStep, fun hpolicy => ?_⟩
  exact ⟨_, tick60_of_externalTick hpolicy, countdown_toNat _, countdown_toNat _, unchanged_timerTick s⟩

end Sys2Proof.Machine
end

section
/-!
PROOFS. The machine's invariant (10_state.md R23, R26, 47_key_input.md R234, R235, 60_exceptions.md R301), in two halves: what
it says of memory, pc and the stack, and what it says of Status. Every step and every operation of the host keeps both.
-/

namespace Sys2Proof.Machine

/-! ## The two halves -/

/-- What the invariant says of memory, pc and the occupied stack slots. -/
structure BodyInvariant (s : State) : Prop where
  memory : s.mem.wf
  pcBound : s.pc.toNat ≤ 0x10FE
  returnBound : ∀ j (_ : j < s.sp.val), s.stack[j].toNat ≤ 0x1000
  returnEven : s.cfg.oddPcPolicy = .fault → ∀ j (_ : j < s.sp.val), s.stack[j].toNat % 2 = 0

/-- What the invariant says of Status. -/
structure StatusInvariant (s : State) : Prop where
  waitAtInstruction : ∀ x snap, s.status = .awaitingKey x snap → s.pc.toNat + 2 ≤ memSize
  waitSnapshot : ∀ x snap, s.status = .awaitingKey x snap → s.cfg.keyWaitTrigger = .level → snap = 0
  faultPrecise : ∀ f, s.status = .faulted f → f.recordedPc = s.pc

theorem Invariant.of_halves {s : State} (hbody : BodyInvariant s) (hstatus : StatusInvariant s) : Invariant s :=
  { hbody, hstatus with }

theorem Invariant.body {s : State} (h : Invariant s) : BodyInvariant s := { h with }

theorem Invariant.status {s : State} (h : Invariant s) : StatusInvariant s := { h with }

theorem StatusInvariant.of_running {s : State} (h : s.status = .running) : StatusInvariant s where
  waitAtInstruction _ _ hwait := by cases h.symm.trans hwait
  waitSnapshot _ _ hwait := by cases h.symm.trans hwait
  faultPrecise _ hfault := by cases h.symm.trans hfault

theorem StatusInvariant.of_awaiting {s : State} {x : Reg} {snap : KeyVector} (h : s.status = .awaitingKey x snap)
    (hpc : s.pc.toNat + 2 ≤ memSize) (hsnap : s.cfg.keyWaitTrigger = .level → snap = 0) : StatusInvariant s where
  waitAtInstruction _ _ _ := hpc
  waitSnapshot _ _ hwait := by
    cases h.symm.trans hwait
    exact hsnap
  faultPrecise _ hfault := by cases h.symm.trans hfault

theorem StatusInvariant.of_faulted {s : State} {f : Fault} (h : s.status = .faulted f) (hpc : f.recordedPc = s.pc) :
    StatusInvariant s where
  waitAtInstruction _ _ hwait := by cases h.symm.trans hwait
  waitSnapshot _ _ hwait := by cases h.symm.trans hwait
  faultPrecise _ hfault := by
    cases h.symm.trans hfault
    exact hpc

/-! ## The tick, Status and the captured key -/

/-- The first half does not speak of Status. -/
theorem BodyInvariant.with_status {s : State} (h : BodyInvariant s) (c : Status) : BodyInvariant { s with status := c } :=
  ⟨h.memory, h.pcBound, h.returnBound, h.returnEven⟩

/-- Neither half speaks of the timers. -/
theorem Invariant.with_timers {s : State} (h : Invariant s) (a b : Byte) : Invariant { s with dt := a, st := b } :=
  ⟨h.memory, h.pcBound, h.returnBound, h.returnEven, h.waitAtInstruction, h.waitSnapshot, h.faultPrecise⟩

theorem Invariant.tickPerStep {s : State} (h : Invariant s) : Invariant s.tickPerStep := by
  rw [tickPerStep_eq_with_timers]
  exact h.with_timers _ _

/-- Two bytes on from an instruction inside memory pc does not wrap. -/
theorem pc_add_two_toNat {a : Word} (h : a.toNat + 2 ≤ memSize) : (a + 2).toNat = a.toNat + 2 :=
  index_add_toNat_of_inMemory h

/-- Four bytes on from an instruction inside memory pc does not wrap. -/
theorem pc_add_four_toNat {a : Word} (h : a.toNat + 2 ≤ memSize) : (a + 4).toNat = a.toNat + 4 := by
  unfold memSize at h
  rw [BitVec.toNat_add]
  exact Nat.mod_eq_of_lt (by simp; omega)

theorem waitStep_keeps_invariant {s : State} {x : Reg} {snap : KeyVector} (h : Invariant s)
    (hwait : s.status = .awaitingKey x snap) : Invariant (waitStep x snap s) := by
  have hpc : s.pc.toNat + 2 ≤ memSize := h.waitAtInstruction x snap hwait
  rcases waitStep_cases x snap s with ⟨_, hstep⟩ | ⟨k, ks, _, hstep⟩
  · rw [hstep]
    refine .of_halves (h.body.with_status _) (.of_awaiting rfl hpc fun hlevel => ?_)
    exact (nextSnapshot_of_level hlevel snap).trans (h.waitSnapshot x snap hwait hlevel)
  · rw [hstep]
    have hbound : (s.pc + 2).toNat ≤ 0x10FE := by
      rw [pc_add_two_toNat hpc]
      unfold memSize at hpc
      omega
    exact Invariant.tickPerStep (.of_halves ⟨h.memory, hbound, h.returnBound, h.returnEven⟩ (.of_running rfl))

/-! ## What an instruction keeps -/

theorem exec_keeps_memory {i : Instr} {s t : State} (hmem : s.mem.wf) (h : exec i s = .next t) : t.mem.wf := by
  by_cases hsame : t.mem = s.mem
  · rwa [hsame]
  · obtain ⟨_, _, _, _, _, hwriters, _⟩ := writersOfEachPart i s t h
    obtain ⟨x, rfl | rfl⟩ := hwriters hsame
    · by_cases hin : InMemory s.i 3
      · cases (exec_ldB_of_inside hin x).symm.trans h
        exact Memory.writeBytes_wf hmem hin
      · cases (exec_ldB_of_outside hin x).symm.trans h
        exact hmem
    · by_cases hin : InMemory s.i (x.val + 1)
      · cases (exec_storeRegs_of_inside hin).symm.trans h
        exact Memory.writeBytes_wf hmem (by rwa [length_regsUpTo])
      · cases (exec_storeRegs_of_outside hin).symm.trans h
        exact hmem

/-- What is true of every occupied slot and of the address CALL pushes stays true of every occupied slot. -/
theorem exec_keeps_slots {P : Word → Prop} {i : Instr} {s t : State} (hslots : ∀ j (_ : j < s.sp.val), P s.stack[j])
    (hpush : P (s.pc + 2)) (h : exec i s = .next t) : ∀ j (_ : j < t.sp.val), P t.stack[j] := by
  by_cases hsame : t.sp = s.sp ∧ t.stack = s.stack
  · obtain ⟨hsp, hstack⟩ := hsame
    intro j hj
    simp only [hstack]
    exact hslots j (hsp ▸ hj)
  · obtain ⟨_, hwriters, _⟩ := writersOfEachPart i s t h
    rcases hwriters (not_and_or.mp hsame) with rfl | ⟨nnn, rfl⟩
    · rcases exec_ret_inv h with ⟨f, rfl, _⟩ | ⟨hactive, rfl⟩
      · exact hslots
      · exact fun j hj => hslots j (Nat.lt_of_lt_of_le hj (Nat.sub_le _ _))
    · rcases exec_call_inv h with ⟨f, rfl, _⟩ | ⟨hroom, rfl⟩
      · exact hslots
      · intro j hj
        rw [Vector.getElem_set]
        split
        · exact hpush
        · have hbelow : j < s.sp.val + 1 := hj
          exact hslots j (by omega)

/-- From an instruction inside memory no instruction leads past 0x10FE, the highest target of JP V0 (R26). -/
theorem exec_keeps_pcBound {i : Instr} {s t : State} (hin : s.pc.toNat + 2 ≤ memSize)
    (hslots : ∀ j (_ : j < s.sp.val), s.stack[j].toNat ≤ 0x1000) (h : exec i s = .next t) : t.pc.toNat ≤ 0x10FE := by
  have hin' : s.pc.toNat + 2 ≤ 4096 := hin
  have hstay : ∀ f, t = s.takeFault f → t.pc.toNat ≤ 0x10FE := by
    rintro f rfl
    rw [State.takeFault_pc]
    omega
  have htwo : t.pc = s.pc + 2 → t.pc.toNat ≤ 0x10FE := fun hpc => by
    rw [hpc, pc_add_two_toNat hin]
    omega
  have hfour : t.pc = s.pc + 4 → t.pc.toNat ≤ 0x10FE := fun hpc => by
    rw [hpc, pc_add_four_toNat hin]
    omega
  have hpc := pcAfterInstruction i s t h
  cases i with
  | ret =>
    rcases exec_ret_inv h with ⟨f, hf, _⟩ | ⟨hactive, rfl⟩
    · exact hstay f hf
    · exact Nat.le_trans (hslots (s.sp.val - 1) (by omega)) (by decide)
  | jp nnn =>
    have hnnn := nnn.isLt
    have hval : t.pc.toNat = nnn.toNat := hpc
    omega
  | jpV0 nnn =>
    have hnnn := nnn.isLt
    have hv0 := (s.getV 0).isLt
    have hval : t.pc.toNat = nnn.toNat + (s.getV 0).toNat := hpc
    omega
  | call nnn =>
    rcases hpc with hval | ⟨f, hf⟩
    · have hnnn := nnn.isLt
      omega
    · exact hstay f hf
  | seImm | sneImm | seReg | sneReg => exact hpc.elim htwo hfour
  | skp | sknp => exact hpc.elim htwo fun hrest => hrest.elim hfour fun ⟨f, hf⟩ => hstay f hf
  | ldB | storeRegs | loadRegs | drw => exact hpc.elim htwo fun ⟨f, hf⟩ => hstay f hf
  | ldKey x =>
    rcases hpc with hval | ⟨snap, rfl⟩
    · exact htwo hval
    · exact Nat.le_trans (Nat.le_of_add_right_le hin) (by decide)
  | _ => exact htwo hpc

theorem exec_keeps_invariant {i : Instr} {s t : State} (hs : Invariant s) (hrun : s.status = .running)
    (hfetch : Fetchable s) (h : exec i s = .next t) : Invariant t := by
  obtain ⟨haligned, hin⟩ := (fetchable_iff s).mp hfetch
  have hpush := pc_add_two_toNat hin
  have hpcEven (hpolicy : s.cfg.oddPcPolicy = .fault) : (s.pc.toNat + 2) % 2 = 0 := by
    have hnotOdd : s.pc.toNat % 2 ≠ 1 := fun hodd => haligned ⟨hodd, hpolicy⟩
    omega
  have hcfg := exec_cfg h
  refine .of_halves ⟨exec_keeps_memory hs.memory h, exec_keeps_pcBound hin hs.returnBound h, ?_, fun hpolicy => ?_⟩ ?_
  · exact exec_keeps_slots (P := fun a => a.toNat ≤ 0x1000) hs.returnBound (by rw [hpush]; exact hin) h
  · rw [hcfg] at hpolicy
    exact exec_keeps_slots (P := fun a => a.toNat % 2 = 0) (hs.returnEven hpolicy) (by rw [hpush]; exact hpcEven hpolicy) h
  · rcases ends_of_exec h with ⟨f, rfl, hpc, _⟩ | ⟨x, _, rfl⟩ | hkept
    · exact .of_faulted rfl hpc
    · exact .of_awaiting rfl hin firstSnapshot_of_level
    · exact .of_running (hkept.trans hrun)

/-- Settles O55: a step is a step of a wait, a fault of the fetch or the decoder, whose record is precise, or an instruction
at a fetchable pc and a tick; each keeps both halves. -/
theorem stepKeepsInvariant : Obligations.StepKeepsInvariant := by
  intro s t hs hstep
  rcases step_cases hstep with ⟨x, snap, hwait, rfl⟩ | ⟨f, hrun, rfl⟩ | ⟨i, u, hrun, hfetch, _, hexec, hend⟩
  · exact waitStep_keeps_invariant hs hwait
  · obtain ⟨hpc, _⟩ := record_of_raised_fault hrun hstep rfl
    exact .of_halves (hs.body.with_status _) (.of_faulted rfl hpc)
  · have hu : Invariant u := exec_keeps_invariant hs hrun hfetch hexec
    rw [finishStep_next] at hend
    split at hend <;> cases hend
    · exact hu
    · exact hu.tickPerStep

/-! ## The host's operations -/

theorem progStart_le : (BitVec.ofNat 16 progStart).toNat ≤ 0x10FE := by decide

/-- Reset gives the invariant to any state whose memory is in canonical form. -/
theorem resetMachine_invariant {s : State} (h : s.mem.wf) : Invariant (resetMachine s) := by
  have hmem : (resetMachine s).mem.wf := Memory.writeBytes_wf h (by rw [Vector.length_toList]; decide)
  exact .of_halves ⟨hmem, progStart_le, nofun, nofun⟩ (.of_running rfl)

/-- Settles O56: memory lists no byte, pc is at the entry point, the stack is empty and the engine runs. -/
theorem resetHasInvariant : Obligations.ResetHasInvariant :=
  .of_halves ⟨reset_memory_wf, progStart_le, nofun, nofun⟩ (.of_running rfl)

theorem load_keeps_invariant {image : List Byte} {s t : State} (hs : Invariant s) (h : load image s = .ok t) :
    Invariant t := by
  obtain ⟨hfits, rfl⟩ := load_ok_inv h
  have hregion : progStart + maxImage = memSize := rfl
  have hmem : (s.mem.writeBytes progStart image).wf := Memory.writeBytes_wf hs.memory (by omega)
  exact ⟨hmem, hs.pcBound, hs.returnBound, hs.returnEven, hs.waitAtInstruction, hs.waitSnapshot, hs.faultPrecise⟩

/-- Settles O57: Reset and Load write memory inside its bounds, SetKeys and Tick60 write nothing the invariant speaks of, and
Step keeps it. -/
theorem hostOperationsKeepInvariant : Obligations.HostOperationsKeepInvariant := by
  intro op s hs
  cases op with
  | reset => exact resetMachine_invariant hs.memory
  | load image =>
    simp only [BlockOp.apply]
    split
    · exact load_keeps_invariant hs ‹_›
    · exact hs
  | setKeys k =>
    exact ⟨hs.memory, hs.pcBound, hs.returnBound, hs.returnEven, hs.waitAtInstruction, hs.waitSnapshot, hs.faultPrecise⟩
  | step =>
    simp only [BlockOp.apply]
    split
    · exact stepKeepsInvariant s _ hs ‹_›
    · exact hs
    · exact hs
  | tick60 =>
    simp only [BlockOp.apply]
    cases hpolicy : s.cfg.timerPolicy with
    | perStep => rw [tick60_of_perStep hpolicy]; exact hs
    | externalTick => rw [tick60_of_externalTick hpolicy]; exact hs.with_timers _ _

theorem runOps_keeps_invariant {s : State} (hs : Invariant s) (ops : List BlockOp) : Invariant (runOps s ops) := by
  induction ops generalizing s with
  | nil => exact hs
  | cons op ops ih => exact ih (hostOperationsKeepInvariant op s hs)

/-- Settles O58: by induction on the list of operations, from the boot, which is a Reset. -/
theorem reachableStatesHaveInvariant : Obligations.ReachableStatesHaveInvariant := by
  rintro s ⟨params, ops, rfl⟩
  exact runOps_keeps_invariant (resetMachine_invariant (created_memory_wf params)) ops

end Sys2Proof.Machine
end

section
/-!
PROOFS. Noninterference (10_state.md R30 to R32): a step reads neither the sound timer nor a stack slot at or above SP. Both
are relations between states that differ in hidden parts alone and that every part of a step keeps.
-/

namespace Sys2Proof.Machine

/-! ## The hidden parts -/

/-- The state with its hidden parts changed: the sound timer by `p`, the stack by `q`. -/
def hide (p : Byte → Byte) (q : Vector Word 16 → Vector Word 16) (s : State) : State :=
  { s with st := p s.st, stack := q s.stack }

/-- The outcome with its next state changed. -/
def mapNext (g : State → State) : Host.Outcome State Fault Refusal → Host.Outcome State Fault Refusal
  | .next t => .next (g t)
  | .fault f => .fault f
  | .refused r => .refused r

section
variable (p : Byte → Byte) (q : Vector Word 16 → Vector Word 16) (s : State)

theorem writeResultAndFlag_hide (x : Reg) (r f : Byte) :
    writeResultAndFlag x r f (hide p q s) = hide p q (writeResultAndFlag x r f s) := by
  unfold writeResultAndFlag
  rw [show (hide p q s).cfg = s.cfg from rfl]
  cases s.cfg.flagOrder with
  | flagLast | resultLast => rfl

theorem result_and_flag_hide (x : Reg) (r f : Byte) :
    (.next (writeResultAndFlag x r f (hide p q s)).advance : Host.Outcome State Fault Refusal) =
      mapNext (hide p q) (.next (writeResultAndFlag x r f s).advance) := by
  rw [writeResultAndFlag_hide]
  rfl

theorem withRangeAtI_hide {t t' : State} (i : Instr) (n : Nat) (ht : t' = hide p q t) :
    withRangeAtI i n (hide p q s) t' = mapNext (hide p q) (withRangeAtI i n s t) := by
  unfold withRangeAtI
  rw [ht, show (hide p q s).i = s.i from rfl]
  cases rangeFault s.i n with
  | none | some => rfl

theorem skipOnKey_hide (i : Instr) (x : Reg) (want : Bool) :
    skipOnKey i x want (hide p q s) = mapNext (hide p q) (skipOnKey i x want s) := by
  unfold skipOnKey
  rw [show (hide p q s).getV x = s.getV x from rfl]
  cases keyOfByte (s.getV x) with
  | none | some => rfl

theorem execLdKey_hide (x : Reg) : execLdKey x (hide p q s) = mapNext (hide p q) (execLdKey x s) := by
  unfold execLdKey
  rw [show firstSnapshot (hide p q s) = firstSnapshot s from rfl, show (hide p q s).keys = s.keys from rfl]
  cases newKeys s.keys (firstSnapshot s) with
  | nil | cons => rfl

theorem execDrw_hide (x y : Reg) (n : Nibble) : execDrw x y n (hide p q s) = mapNext (hide p q) (execDrw x y n s) := by
  unfold execDrw
  rw [show (hide p q s).cfg = s.cfg from rfl]
  split
  · rfl
  · exact withRangeAtI_hide p q s _ _ rfl

theorem execRet_hide : execRet (hide p id s) = mapNext (hide p id) (execRet s) := by
  unfold execRet
  by_cases h : s.sp.val = 0
  · rw [dif_pos h]
    exact dif_pos h
  · rw [dif_neg h]
    exact dif_neg h

theorem execCall_hide (nnn : Addr) : execCall nnn (hide p id s) = mapNext (hide p id) (execCall nnn s) := by
  unfold execCall
  by_cases h : s.sp.val = stackDepth
  · rw [dif_pos h]
    exact dif_pos h
  · rw [dif_neg h]
    exact dif_neg h

end

/-- An instruction carries the hidden parts along: FX18 may not have ST changed, CALL and RET not the stack, and any other
instruction neither reads nor writes them. -/
theorem exec_hide {p : Byte → Byte} {q : Vector Word 16 → Vector Word 16} {i : Instr}
    (hst : (∃ x, i = .ldSt x) → p = id) (hstack : (i = .ret ∨ ∃ n, i = .call n) → q = id) (s : State) :
    exec i (hide p q s) = mapNext (hide p q) (exec i s) := by
  cases i with
  | ldSt x =>
    obtain rfl := hst ⟨x, rfl⟩
    rfl
  | ret =>
    obtain rfl := hstack (.inl rfl)
    exact execRet_hide p s
  | call nnn =>
    obtain rfl := hstack (.inr ⟨nnn, rfl⟩)
    exact execCall_hide p s nnn
  | skp x | sknp x => exact skipOnKey_hide p q s _ x _
  | drw x y n => exact execDrw_hide p q s x y n
  | ldB x | storeRegs x | loadRegs x =>
    refine withRangeAtI_hide p q s _ _ ?_
    rfl
  | ldKey x => exact execLdKey_hide p q s x
  | addReg x y | subReg x y | shr x y | shl x y | subn x y =>
    exact result_and_flag_hide p q s x _ _
  | _ => rfl

/-! ## Relations that a step keeps -/

/-- Related states differ in hidden parts at most, and each part of a step leads from related states to related states. -/
structure StepSimulation (R : State → State → Prop) : Prop where
  hidden : ∀ {s s'}, R s s' → ∃ p q, s' = hide p q s
  withStatus : ∀ {s s'} (c : Status), R s s' → R { s with status := c } { s' with status := c }
  capture : ∀ {s s'} (x k : Reg) (ks : List Reg), R s s' → R (captureKey x k ks s) (captureKey x k ks s')
  tick : ∀ {s s'}, R s s' → R s.tickPerStep s'.tickPerStep
  exec : ∀ {s s' t} {i : Instr}, R s s' → exec i s = .next t → ∃ t', Machine.exec i s' = .next t' ∧ R t t'

section
variable {R : State → State → Prop} (sim : StepSimulation R)
include sim

theorem StepSimulation.status {s s' : State} (h : R s s') : s'.status = s.status := by
  obtain ⟨p, q, rfl⟩ := sim.hidden h
  rfl

theorem StepSimulation.waitStep {s s' : State} (h : R s s') (x : Reg) (snap : KeyVector) :
    R (waitStep x snap s) (Machine.waitStep x snap s') := by
  have hreads : s'.keys = s.keys ∧ nextSnapshot snap s' = nextSnapshot snap s := by
    obtain ⟨p, q, rfl⟩ := sim.hidden h
    exact ⟨rfl, rfl⟩
  obtain ⟨hkeys, hnext⟩ := hreads
  rcases waitStep_cases x snap s with ⟨hnone, hstep⟩ | ⟨k, ks, hnew, hstep⟩
  · rw [hstep, waitStep_of_none (by rw [hkeys, hnone]), hnext]
    exact sim.withStatus _ h
  · rw [hstep, waitStep_of_new (by rw [hkeys, hnew])]
    exact sim.tick (sim.withStatus _ (sim.capture x k ks h))

theorem StepSimulation.finishStep {t t' : State} (h : R t t') :
    OutcomesRelate R (finishStep (.next t)) (Machine.finishStep (.next t')) := by
  rw [finishStep_next, finishStep_next, sim.status h]
  refine .inl ⟨_, _, rfl, rfl, ?_⟩
  split
  · exact h
  · exact sim.tick h

theorem StepSimulation.runStep {s s' : State} (h : R s s') :
    OutcomesRelate R (runStep s) (Machine.runStep s') := by
  have hreads : fetch s' = fetch s ∧ Fetchable s' = Fetchable s ∧ wordAtPc s' = wordAtPc s ∧ s'.cfg = s.cfg ∧
      s'.pc = s.pc := by
    obtain ⟨p, q, rfl⟩ := sim.hidden h
    exact ⟨rfl, rfl, rfl, rfl, rfl⟩
  obtain ⟨hfetch', hfetchable, hword, hcfg, hpc⟩ := hreads
  rcases runStep_cases s with ⟨f, hfetch, hstep⟩ | ⟨hfetch, hdecode, hstep⟩ | ⟨i, t, hfetch, hdecode, hexec, hstep⟩
  · rw [hstep, runStep_of_fetch_error (hfetch'.trans hfetch)]
    exact .inl ⟨_, _, rfl, rfl, sim.withStatus _ h⟩
  · rw [hstep, runStep_of_unknown (hfetchable ▸ hfetch) (by rw [hcfg, hword, hdecode]), hpc, hword]
    exact .inl ⟨_, _, rfl, rfl, sim.withStatus _ h⟩
  · obtain ⟨t', hexec', ht⟩ := sim.exec h hexec
    rw [hstep, runStep_of_decodes (hfetchable ▸ hfetch) (by rw [hcfg, hword, hdecode]), hexec']
    exact sim.finishStep ht

/-- Related states step alike. -/
theorem StepSimulation.step {s s' : State} (h : R s s') : OutcomesRelate R (step s) (Machine.step s') := by
  have hsame := sim.status h
  cases hstatus : s.status with
  | faulted f =>
    rw [step_of_faulted hstatus, step_of_faulted (hsame.trans hstatus)]
    exact .inr ⟨f, rfl, rfl⟩
  | awaitingKey x snap =>
    rw [step_of_awaiting hstatus, step_of_awaiting (hsame.trans hstatus)]
    exact .inl ⟨_, _, rfl, rfl, sim.waitStep h x snap⟩
  | running =>
    rw [step_of_running hstatus, step_of_running (hsame.trans hstatus)]
    exact sim.runStep h

end

/-! ## The sound timer -/

theorem differInSound_iff {s s' : State} : DifferInSound s s' ↔ ∃ a, s' = hide (fun _ => a) id s :=
  ⟨fun h => ⟨s'.st, h⟩, by rintro ⟨a, rfl⟩; rfl⟩

/-- The tick reads ST only to write it. -/
theorem tickPerStep_differInSound (s : State) (a : Byte) :
    DifferInSound s.tickPerStep (hide (fun _ => a) id s).tickPerStep := by
  unfold State.tickPerStep
  rw [show (hide (fun _ => a) id s).cfg = s.cfg from rfl]
  cases s.cfg.timerPolicy with
  | perStep | externalTick => rfl

/-- FX18 overwrites ST; any other instruction carries it along. -/
theorem exec_differInSound {i : Instr} {s t : State} (a : Byte) (h : exec i s = .next t) :
    ∃ t', exec i (hide (fun _ => a) id s) = .next t' ∧ DifferInSound t t' := by
  by_cases hi : ∃ x, i = .ldSt x
  · obtain ⟨x, rfl⟩ := hi
    cases (exec_ldSt x s).symm.trans h
    exact ⟨_, exec_ldSt x _, rfl⟩
  · refine ⟨hide (fun _ => a) id t, ?_, rfl⟩
    rw [exec_hide (fun hst => absurd hst hi) (fun _ => rfl), h]
    rfl

theorem differInSound_simulation : StepSimulation DifferInSound where
  hidden h := by
    obtain ⟨a, rfl⟩ := differInSound_iff.mp h
    exact ⟨_, _, rfl⟩
  withStatus c h := by
    obtain ⟨a, rfl⟩ := differInSound_iff.mp h
    rfl
  capture x k ks h := by
    obtain ⟨a, rfl⟩ := differInSound_iff.mp h
    rfl
  tick h := by
    obtain ⟨a, rfl⟩ := differInSound_iff.mp h
    exact tickPerStep_differInSound _ a
  exec h hexec := by
    obtain ⟨a, rfl⟩ := differInSound_iff.mp h
    exact exec_differInSound a hexec

/-- Settles O59: no part of a step reads ST but to write it, so states that differ there alone step alike. -/
theorem soundTimerHasNoEffect : Obligations.SoundTimerHasNoEffect :=
  fun _ _ h => differInSound_simulation.step h

/-! ## The dead slots -/

/-- Two stacks have the same `n` lowest slots. -/
def AgreeBelow (n : Nat) (k k' : Vector Word 16) : Prop := ∀ j (_ : j < n) (_ : j < 16), k'[j] = k[j]

theorem differInDeadSlots_iff {s s' : State} :
    DifferInDeadSlots s s' ↔ ∃ k, AgreeBelow s.sp.val s.stack k ∧ s' = hide id (fun _ => k) s := by
  constructor
  · rintro ⟨h, hagree⟩
    exact ⟨s'.stack, fun j hj _ => hagree j hj, h⟩
  · rintro ⟨k, hagree, rfl⟩
    exact ⟨rfl, fun j hj => hagree j hj _⟩

/-- States that differ in dead slots still do so where neither SP nor the stack has changed. -/
theorem differInDeadSlots_hide {s t : State} {k : Vector Word 16} (hagree : AgreeBelow s.sp.val s.stack k)
    (hsp : t.sp = s.sp) (hstack : t.stack = s.stack) : DifferInDeadSlots t (hide id (fun _ => k) t) :=
  differInDeadSlots_iff.mpr ⟨k, by rwa [hsp, hstack], rfl⟩

/-- The tick carries the stack along. -/
theorem tickPerStep_hide_stack (s : State) (k : Vector Word 16) :
    (hide id (fun _ => k) s).tickPerStep = hide id (fun _ => k) s.tickPerStep := by
  unfold State.tickPerStep
  rw [show (hide id (fun _ => k) s).cfg = s.cfg from rfl]
  cases s.cfg.timerPolicy with
  | perStep | externalTick => rfl

/-- RET reads the highest occupied slot. -/
theorem exec_ret_differInDeadSlots {s t : State} {k : Vector Word 16} (hagree : AgreeBelow s.sp.val s.stack k)
    (h : exec .ret s = .next t) :
    ∃ t', exec .ret (hide id (fun _ => k) s) = .next t' ∧ DifferInDeadSlots t t' := by
  by_cases hsp : s.sp.val = 0
  · cases (exec_ret_of_empty hsp).symm.trans h
    exact ⟨_, exec_ret_of_empty (s := hide id (fun _ => k) s) hsp, differInDeadSlots_hide hagree rfl rfl⟩
  · cases (exec_ret_of_active hsp).symm.trans h
    refine ⟨_, exec_ret_of_active (s := hide id (fun _ => k) s) hsp,
      differInDeadSlots_iff.mpr ⟨k, fun j hj hj' => ?_, ?_⟩⟩
    · exact hagree j (Nat.lt_of_lt_of_le hj (Nat.sub_le _ _)) hj'
    · have htop : k[s.sp.val - 1] = s.stack[s.sp.val - 1] := hagree _ (by omega) _
      simp only [hide, htop, id]

/-- CALL writes the lowest dead slot, so one more slot agrees. -/
theorem exec_call_differInDeadSlots {nnn : Addr} {s t : State} {k : Vector Word 16}
    (hagree : AgreeBelow s.sp.val s.stack k) (h : exec (.call nnn) s = .next t) :
    ∃ t', exec (.call nnn) (hide id (fun _ => k) s) = .next t' ∧ DifferInDeadSlots t t' := by
  by_cases hsp : s.sp.val = stackDepth
  · cases (exec_call_of_full hsp nnn).symm.trans h
    exact ⟨_, exec_call_of_full (s := hide id (fun _ => k) s) hsp nnn, differInDeadSlots_hide hagree rfl rfl⟩
  · have hroom := sp_lt_of_ne hsp
    cases (exec_call_of_room hroom nnn).symm.trans h
    refine ⟨_, exec_call_of_room (s := hide id (fun _ => k) s) hroom nnn,
      differInDeadSlots_iff.mpr ⟨k.set s.sp.val (s.pc + 2), fun j hj hj' => ?_, rfl⟩⟩
    have hbelow : j < s.sp.val + 1 := hj
    rw [Vector.getElem_set, Vector.getElem_set]
    split
    · rfl
    · exact hagree j (by omega) hj'

/-- RET and CALL agree on the occupied slots; any other instruction carries the stack along. -/
theorem exec_differInDeadSlots {i : Instr} {s t : State} {k : Vector Word 16} (hagree : AgreeBelow s.sp.val s.stack k)
    (h : exec i s = .next t) :
    ∃ t', exec i (hide id (fun _ => k) s) = .next t' ∧ DifferInDeadSlots t t' := by
  by_cases hi : i = .ret ∨ ∃ n, i = .call n
  · rcases hi with rfl | ⟨nnn, rfl⟩
    · exact exec_ret_differInDeadSlots hagree h
    · exact exec_call_differInDeadSlots hagree h
  · obtain ⟨_, hwriters, _⟩ := writersOfEachPart i s t h
    have hkept : ¬ (t.sp ≠ s.sp ∨ t.stack ≠ s.stack) := fun hne => hi (hwriters hne)
    obtain ⟨hsp, hstack⟩ := not_or.mp hkept
    refine ⟨_, ?_, differInDeadSlots_hide hagree (not_not.mp hsp) (not_not.mp hstack)⟩
    rw [exec_hide (fun _ => rfl) (fun hstack => absurd hstack hi), h]
    rfl

theorem differInDeadSlots_simulation : StepSimulation DifferInDeadSlots where
  hidden h := by
    obtain ⟨k, _, rfl⟩ := differInDeadSlots_iff.mp h
    exact ⟨_, _, rfl⟩
  withStatus {s _} c h := by
    obtain ⟨k, hagree, rfl⟩ := differInDeadSlots_iff.mp h
    exact differInDeadSlots_hide (t := { s with status := c }) hagree rfl rfl
  capture {s _} x j js h := by
    obtain ⟨k, hagree, rfl⟩ := differInDeadSlots_iff.mp h
    exact differInDeadSlots_hide (t := captureKey x j js s) hagree rfl rfl
  tick h := by
    obtain ⟨k, hagree, rfl⟩ := differInDeadSlots_iff.mp h
    rw [tickPerStep_hide_stack]
    exact differInDeadSlots_hide hagree (State.tickPerStep_sp _) (State.tickPerStep_stack _)
  exec h hexec := by
    obtain ⟨k, hagree, rfl⟩ := differInDeadSlots_iff.mp h
    exact exec_differInDeadSlots hagree hexec

/-- Settles O60: RET reads an occupied slot and CALL writes the lowest dead one; no other part of a step reads or writes the
stack. -/
theorem deadStackSlotsAreUnobservable : Obligations.DeadStackSlotsAreUnobservable :=
  fun _ _ h => differInDeadSlots_simulation.step h

end Sys2Proof.Machine
end
